-- ==== Sys2Proof/Word.lean ====
section
/-! DEFINITION. The unsigned words of the block: 8, 16, 17 and 32 bits (00_scope.md R7, 20_memory.md R30). There are no signed quantities. -/

namespace Sys2Proof

/-- `u8`, a byte: the unit of every access (20_memory.md R30, R37). -/
abbrev Byte := BitVec 8

/-- `u16`: a checksum word, a port, a length field. -/
abbrev U16 := BitVec 16

/-- `u17`: an offset into the output buffer, or its length (10_state.md R17, R21). -/
abbrev U17 := BitVec 17

/-- `u32`: a TCP sequence or acknowledgement number, the command word `CW`. -/
abbrev U32 := BitVec 32

end Sys2Proof
end

