-- ==== Sys2Proof/Syntax.lean ====
section
/-! DEFINITION. The commands of the block, one constructor per row of opcode_table.json, with the operand parts of 30_encoding.md R54. -/

namespace Sys2Proof

/-- An IPv4 address operand: the four bytes of `SRC` or `DST`, first octet first
(30_encoding.md R54, R62; 20_memory.md R34). -/
structure IPv4Addr where
  o0 : Byte
  o1 : Byte
  o2 : Byte
  o3 : Byte
  deriving DecidableEq, Repr

/-- The `AV` byte once its bits 7:2 are known to be zero: the verdict of the host's parser on the two
addresses (30_encoding.md R54). -/
structure AddrValid where
  /-- bit 0, `SV`: the source address parsed as four octets -/
  sv : Bool
  /-- bit 1, `DV`: the destination address did -/
  dv : Bool
  deriving DecidableEq, Repr

/-- `IPPART`: the IPv4 operands common to `IP4HDR` and `ASSEMBLE` (30_encoding.md R54). -/
structure IpPart where
  av   : AddrValid
  ttl  : Byte
  ipid : U16
  src  : IPv4Addr
  dst  : IPv4Addr
  deriving DecidableEq, Repr

/-- `ADDRPART`: the address operands of `TCPHDR` (30_encoding.md R54). -/
structure AddrPart where
  av  : AddrValid
  src : IPv4Addr
  dst : IPv4Addr
  deriving DecidableEq, Repr

/-- `ICMPPART`: `TYPE`, `CODE`, `ID`, `SEQ` (30_encoding.md R54). -/
structure IcmpPart where
  icmpType : Byte
  icmpCode : Byte
  id       : U16
  seq      : U16
  deriving DecidableEq, Repr

/-- `TCPPART`: `FLAGS`, `SPORT`, `DPORT`, `SEQN`, `ACKN`, `WIN` (30_encoding.md R54). -/
structure TcpPart where
  flags : Byte
  sport : U16
  dport : U16
  seqn  : U32
  ackn  : U32
  win   : U16
  deriving DecidableEq, Repr

/-- One command with its operands (30_encoding.md R51; 45_absent_families.md R145: the set is closed). -/
inductive Instr where
  /-- `CSUM`, format C (30_encoding.md R55) -/
  | csum (buf : List Byte)
  /-- `IP4HDR`, format I (30_encoding.md R56); `proto` is the `MOD` byte -/
  | ip4hdr (proto : Byte) (ip : IpPart) (tlen : U16)
  /-- `ICMPHDR`, format M (30_encoding.md R57) -/
  | icmphdr (icmp : IcmpPart) (payload : List Byte)
  /-- `TCPHDR`, format T (30_encoding.md R58) -/
  | tcphdr (addr : AddrPart) (tcp : TcpPart) (payload : List Byte)
  /-- `ASSEMBLE` with `MOD = 1`, format A1 (30_encoding.md R59) -/
  | assembleIcmp (ip : IpPart) (icmp : IcmpPart) (payload : List Byte)
  /-- `ASSEMBLE` with `MOD = 6`, format A6 (30_encoding.md R60) -/
  | assembleTcp (ip : IpPart) (tcp : TcpPart) (payload : List Byte)
  /-- `ASSEMBLE` with any other `MOD`, format AX (30_encoding.md R61); `kind` is the `MOD` byte -/
  | assembleUnsupported (kind : Byte) (ip : IpPart)
  deriving DecidableEq, Repr

end Sys2Proof
end

