-- ==== Sys2Proof/Machine/Bytes.lean ====
section
/-! DEFINITION. The notation of 00_scope.md R7 over byte strings: big-endian assembly and splitting, `trunc_16`, substring and substring replacement. -/

namespace Sys2Proof.Machine

/-- `B[i]`; `0` outside the string, which no rule reads (20_memory.md R31). -/
def byteAt (b : List Byte) (i : Nat) : Byte := b.getD i 0x00#8

/-- `BE16(B, i) = B[i] * 256 + B[i+1]` (00_scope.md R7). -/
def be16At (b : List Byte) (i : Nat) : U16 := byteAt b i ++ byteAt b (i + 1)

/-- `BE32(B, i)`, the first byte highest (00_scope.md R7). -/
def be32At (b : List Byte) (i : Nat) : U32 := be16At b i ++ be16At b (i + 2)

/-- `be16(v) = [v[15:8], v[7:0]]` (00_scope.md R7). -/
def be16 (v : U16) : List Byte := [v.extractLsb' 8 8, v.extractLsb' 0 8]

/-- `be32(v)`, the most significant byte first (00_scope.md R7). -/
def be32 (v : U32) : List Byte :=
  [v.extractLsb' 24 8, v.extractLsb' 16 8, v.extractLsb' 8 8, v.extractLsb' 0 8]

/-- `trunc_16(v) = v mod 2^16` (00_scope.md R7). -/
def trunc16 (v : Nat) : U16 := BitVec.ofNat 16 v

/-- `B[i..j)` (00_scope.md R7). -/
def slice (b : List Byte) (i j : Nat) : List Byte := (b.drop i).take (j - i)

/-- `B[i..i+len(C)) := C`, a substring replaced by one of the same length (00_scope.md R7). -/
def splice (b : List Byte) (i : Nat) (c : List Byte) : List Byte :=
  b.take i ++ c ++ b.drop (i + c.length)

/-- The four bytes of an address as they stand in a header: first octet first (20_memory.md R34). -/
def addrBytes (a : IPv4Addr) : List Byte := [a.o0, a.o1, a.o2, a.o3]

/-- The address whose four bytes stand at offset `i` (30_encoding.md R62: copied byte for byte). -/
def addrAt (b : List Byte) (i : Nat) : IPv4Addr :=
  { o0 := byteAt b i, o1 := byteAt b (i + 1), o2 := byteAt b (i + 2), o3 := byteAt b (i + 3) }

end Sys2Proof.Machine
end

