-- ==== Sys2Proof/Config.lean ====
section
/-! DEFINITION. The fixed sizes of the block (00_scope.md R6) and the one free value of the model. -/

namespace Sys2Proof

/-- `PLEN_MAX`: the largest payload or buffer of one command (00_scope.md R6). -/
def Config.plenMax : Nat := 65535

/-- `DLEN_MAX`: the largest descriptor the command channel delivers (00_scope.md R6, 20_memory.md R31). -/
def Config.dlenMax : Nat := 65566

/-- `OUT_MAX`: the size of `OUT_BUF` in bytes (00_scope.md R6, 20_memory.md R33). -/
def Config.outMax : Nat := 65575

/-- FREE VALUE (assumption 2): the 16 bits the field `CSUM` holds after the `n`-th command that leaves it
without a value (10_state.md R15: "After `CSUM_V <- 0` the field `CSUM` has no value").
It has no body, so nothing can be proved of what it is. -/
opaque Config.freeCsum : Nat → U16

end Sys2Proof
end

