-- ==== Sys2Proof/WellFormed.lean ====
section
/-! DEFINITION. Which terms of `Instr` a descriptor can carry: the payload length fits `PLEN`, and the unsupported kind is neither 1 nor 6. Every other operand has exactly the width of its field (30_encoding.md R62). -/

namespace Sys2Proof

/-- `PLEN` is 16 bits, so a payload or buffer has at most 65535 bytes (00_scope.md R6). -/
def payloadFits (payload : List Byte) : Bool := decide (payload.length ≤ Config.plenMax)

/-- The kinds format AX carries: `MOD` neither `0x01` nor `0x06` (30_encoding.md R61). -/
def kindUnsupported (kind : Byte) : Bool := kind != 0x01#8 && kind != 0x06#8

/-- The checks of a command's operands. -/
def Instr.check (i : Instr) : Bool :=
  match i with
  | .csum buf => payloadFits buf
  | .ip4hdr _ _ _ => true
  | .icmphdr _ payload => payloadFits payload
  | .tcphdr _ _ payload => payloadFits payload
  | .assembleIcmp _ _ payload => payloadFits payload
  | .assembleTcp _ _ payload => payloadFits payload
  | .assembleUnsupported kind _ => kindUnsupported kind

/-- The well-formed commands: exactly those some descriptor decodes to. -/
abbrev Instr.WellFormed (i : Instr) : Prop := i.check = true

end Sys2Proof
end

