-- ==== Sys2Proof/Decode.lean ====
section
/-! DEFINITION. The decoder of command descriptors (30_encoding.md R53), total on byte strings and rejecting by name; the operand parts (R54) and formats (R55 to R61); and the encoder written from the same tables. -/

namespace Sys2Proof

open Sys2Proof.Machine

/-- Why a byte string is no command. Every one of these ends the command with `IllegalCommand`
(30_encoding.md R53, R63). -/
inductive DecodeError where
  /-- `DLEN < 4` -/
  | noPrefix
  /-- `OPC` is `0x00` or `0x06` to `0xFF` -/
  | unassignedOpcode
  /-- `MOD` is not 0 in `CSUM`, `ICMPHDR` or `TCPHDR` -/
  | modNotZero
  /-- `PLEN` is not 0 in `IP4HDR` -/
  | plenNotZero
  /-- `DLEN` is not the length of the format (for format AX: below 16) -/
  | wrongLength
  /-- a bit of `AV[7:2]` is set -/
  | avReserved
  deriving DecidableEq, Repr

/-- `OPC`, the byte at offset 0 (30_encoding.md R50). -/
def opcOf (d : List Byte) : Byte := byteAt d 0

/-- `MOD`, the byte at offset 1 (30_encoding.md R50). -/
def modOf (d : List Byte) : Byte := byteAt d 1

/-- `PLEN`, the `u16` at offset 2 (30_encoding.md R50). -/
def plenOf (d : List Byte) : Nat := (be16At d 2).toNat

/-- `AV[7:2] = 0` (30_encoding.md R54). -/
def avClean (av : Byte) : Bool := av.extractLsb' 2 6 == 0#6

/-- `SV = AV[0]`, `DV = AV[1]` (30_encoding.md R54, R62). -/
def avOf (av : Byte) : AddrValid := { sv := av.getLsbD 0, dv := av.getLsbD 1 }

/-- The `IPPART` at offset `a` (30_encoding.md R54). -/
def ipPartAt (d : List Byte) (a : Nat) : IpPart :=
  { av := avOf (byteAt d a), ttl := byteAt d (a + 1), ipid := be16At d (a + 2),
    src := addrAt d (a + 4), dst := addrAt d (a + 8) }

/-- The `ADDRPART` at offset `a` (30_encoding.md R54). -/
def addrPartAt (d : List Byte) (a : Nat) : AddrPart :=
  { av := avOf (byteAt d a), src := addrAt d (a + 1), dst := addrAt d (a + 5) }

/-- The `ICMPPART` at offset `a` (30_encoding.md R54). -/
def icmpPartAt (d : List Byte) (a : Nat) : IcmpPart :=
  { icmpType := byteAt d a, icmpCode := byteAt d (a + 1), id := be16At d (a + 2),
    seq := be16At d (a + 4) }

/-- The `TCPPART` at offset `a` (30_encoding.md R54). -/
def tcpPartAt (d : List Byte) (a : Nat) : TcpPart :=
  { flags := byteAt d a, sport := be16At d (a + 1), dport := be16At d (a + 3),
    seqn := be32At d (a + 5), ackn := be32At d (a + 9), win := be16At d (a + 13) }

/-- Format C (30_encoding.md R55): `BUF` from offset 4. -/
def decodeCsum (d : List Byte) : Except DecodeError Instr :=
  if modOf d ≠ 0x00#8 then .error .modNotZero
  else if d.length ≠ 4 + plenOf d then .error .wrongLength
  else .ok (.csum (d.drop 4))

/-- Format I (30_encoding.md R56): `PROTO` is `MOD`, `IPPART` at 4, `TLEN` at 16. -/
def decodeIp4hdr (d : List Byte) : Except DecodeError Instr :=
  if plenOf d ≠ 0 then .error .plenNotZero
  else if d.length ≠ 18 then .error .wrongLength
  else if avClean (byteAt d 4) = false then .error .avReserved
  else .ok (.ip4hdr (modOf d) (ipPartAt d 4) (be16At d 16))

/-- Format M (30_encoding.md R57): `ICMPPART` at 4, `PAYLOAD` from 10. -/
def decodeIcmphdr (d : List Byte) : Except DecodeError Instr :=
  if modOf d ≠ 0x00#8 then .error .modNotZero
  else if d.length ≠ 10 + plenOf d then .error .wrongLength
  else .ok (.icmphdr (icmpPartAt d 4) (d.drop 10))

/-- Format T (30_encoding.md R58): `ADDRPART` at 4, `TCPPART` at 13, `PAYLOAD` from 28. -/
def decodeTcphdr (d : List Byte) : Except DecodeError Instr :=
  if modOf d ≠ 0x00#8 then .error .modNotZero
  else if d.length ≠ 28 + plenOf d then .error .wrongLength
  else if avClean (byteAt d 4) = false then .error .avReserved
  else .ok (.tcphdr (addrPartAt d 4) (tcpPartAt d 13) (d.drop 28))

/-- Formats A1, A6 and AX by `MOD` (30_encoding.md R59 to R61): `IPPART` at 4, inner part at 16. -/
def decodeAssemble (d : List Byte) : Except DecodeError Instr :=
  if d.length < 16 then .error .wrongLength
  else if avClean (byteAt d 4) = false then .error .avReserved
  else if modOf d = 0x01#8 then
    if d.length ≠ 22 + plenOf d then .error .wrongLength
    else .ok (.assembleIcmp (ipPartAt d 4) (icmpPartAt d 16) (d.drop 22))
  else if modOf d = 0x06#8 then
    if d.length ≠ 31 + plenOf d then .error .wrongLength
    else .ok (.assembleTcp (ipPartAt d 4) (tcpPartAt d 16) (d.drop 31))
  else .ok (.assembleUnsupported (modOf d) (ipPartAt d 4))

/-- The decoder (30_encoding.md R53): every byte string is exactly one command or rejected by name. -/
def decode (d : List Byte) : Except DecodeError Instr :=
  if d.length < 4 then .error .noPrefix
  else if opcOf d = 0x01#8 then decodeCsum d
  else if opcOf d = 0x02#8 then decodeIp4hdr d
  else if opcOf d = 0x03#8 then decodeIcmphdr d
  else if opcOf d = 0x04#8 then decodeTcphdr d
  else if opcOf d = 0x05#8 then decodeAssemble d
  else .error .unassignedOpcode

/-! ### The encoder -/

/-- The 4-byte prefix (30_encoding.md R50). -/
def encodePrefix (opc md : Byte) (plen : Nat) : List Byte := [opc, md] ++ be16 (trunc16 plen)

/-- The `AV` byte: bit 0 `SV`, bit 1 `DV`, bits 7:2 zero (30_encoding.md R54). -/
def encodeAv (av : AddrValid) : Byte := 0#6 ++ BitVec.ofBool av.dv ++ BitVec.ofBool av.sv

/-- `IPPART`, 12 bytes (30_encoding.md R54). -/
def encodeIpPart (p : IpPart) : List Byte :=
  [encodeAv p.av, p.ttl] ++ be16 p.ipid ++ addrBytes p.src ++ addrBytes p.dst

/-- `ADDRPART`, 9 bytes (30_encoding.md R54). -/
def encodeAddrPart (p : AddrPart) : List Byte := [encodeAv p.av] ++ addrBytes p.src ++ addrBytes p.dst

/-- `ICMPPART`, 6 bytes (30_encoding.md R54). -/
def encodeIcmpPart (p : IcmpPart) : List Byte := [p.icmpType, p.icmpCode] ++ be16 p.id ++ be16 p.seq

/-- `TCPPART`, 15 bytes (30_encoding.md R54). -/
def encodeTcpPart (p : TcpPart) : List Byte :=
  [p.flags] ++ be16 p.sport ++ be16 p.dport ++ be32 p.seqn ++ be32 p.ackn ++ be16 p.win

/-- The descriptor of a command (30_encoding.md R55 to R61). For an unsupported kind, whose `PLEN` and
bytes from 16 on nothing reads, `PLEN` is 0 and nothing follows (assumption 9). -/
def encode (i : Instr) : List Byte :=
  match i with
  | .csum buf => encodePrefix 0x01#8 0x00#8 buf.length ++ buf
  | .ip4hdr proto ip tlen => encodePrefix 0x02#8 proto 0 ++ encodeIpPart ip ++ be16 tlen
  | .icmphdr icmp payload => encodePrefix 0x03#8 0x00#8 payload.length ++ encodeIcmpPart icmp ++ payload
  | .tcphdr addr tcp payload =>
    encodePrefix 0x04#8 0x00#8 payload.length ++ encodeAddrPart addr ++ encodeTcpPart tcp ++ payload
  | .assembleIcmp ip icmp payload =>
    encodePrefix 0x05#8 0x01#8 payload.length ++ encodeIpPart ip ++ encodeIcmpPart icmp ++ payload
  | .assembleTcp ip tcp payload =>
    encodePrefix 0x05#8 0x06#8 payload.length ++ encodeIpPart ip ++ encodeTcpPart tcp ++ payload
  | .assembleUnsupported kind ip => encodePrefix 0x05#8 kind 0 ++ encodeIpPart ip

/-! ### Words of the opcode table -/

/-- The length a descriptor must have, told from `OPC`, `MOD` and `PLEN` alone (30_encoding.md R64); the
least length for format AX, and the bare prefix for an opcode that is none. -/
def requiredLength (opc md : Byte) (plen : Nat) : Nat :=
  if opc = 0x01#8 then 4 + plen
  else if opc = 0x02#8 then 18
  else if opc = 0x03#8 then 10 + plen
  else if opc = 0x04#8 then 28 + plen
  else if opc = 0x05#8 then
    if md = 0x01#8 then 22 + plen else if md = 0x06#8 then 31 + plen else 16
  else 4

/-- The descriptor whose table bits are `w`: the command word `CW`, laid out big-endian (30_encoding.md
R50), then bytes of zero up to the length the prefix asks for (assumption 10). -/
def tableDescriptor (nbits w : Nat) : List Byte :=
  let p := be32 (BitVec.ofNat 32 (w % 2 ^ nbits))
  p ++ List.replicate (requiredLength (opcOf p) (modOf p) (plenOf p) - 4) 0x00#8

/-- What the decoder reads from a word of the opcode table. -/
def decodeTableWord (nbits w : Nat) : Option Instr :=
  match decode (tableDescriptor nbits w) with
  | .ok i => some i
  | .error _ => none

end Sys2Proof
end

