-- ==== Sys2Proof/Machine/State.lean ====
section
/-! DEFINITION. The state: the result latch, which is all the state the spec gives the block (10_state.md R14), and the model's own view of the host beside it. -/

namespace Sys2Proof.Machine

/-- The bytes of `OUT_BUF` that hold a value, as (offset, byte) pairs with offsets strictly rising. An offset
that is not listed holds no value (10_state.md R15, R17; assumption 3). -/
abbrev Memory := List Host.Cell

/-- The failures of a command (60_exceptions.md R150). Each is delivered in `ERR`, as a next state (R158). -/
inductive CmdError where
  /-- an address did not parse (60_exceptions.md R151) -/
  | invalidAddress
  /-- `ASSEMBLE` of a kind other than 1 and 6 (60_exceptions.md R152) -/
  | unsupportedPacketKind
  /-- the transport's failure: it has a code, and the block never raises it (60_exceptions.md R153) -/
  | transmitError
  /-- the descriptor is malformed (60_exceptions.md R154) -/
  | illegalCommand
  deriving DecidableEq, Repr

/-- The outcome of a command (10_state.md R15). -/
inductive CmdResult where
  /-- `Ok_u16(c)` -/
  | okU16 (c : U16)
  /-- `Ok_bytes(S)` -/
  | okBytes (s : List Byte)
  /-- `Error(e)` -/
  | error (e : CmdError)
  deriving DecidableEq, Repr

/-- The result latch `RES` (10_state.md R14). -/
structure Latch where
  /-- `ERR`: outcome code of the last command -/
  err    : Byte
  /-- `CSUM_V`: `CSUM` holds the result of the last command -/
  csumV  : Bool
  /-- `CSUM`: meaningful only while `CSUM_V = 1` -/
  csum   : U16
  /-- `OUT_LEN`: number of valid bytes in `OUT_BUF` -/
  outLen : U17
  /-- `OUT_BUF`: the bytes a header or packet command returned -/
  outBuf : Memory
  deriving DecidableEq, Repr

/-- What the host can name in a read (70_reset_and_hazards.md R190: a latch field, or an offset into
`OUT_BUF`; offsets fit 17 bits, 10_state.md R21). -/
inductive LatchField where
  | err
  | csumV
  | csum
  | outLen
  | outBuf (off : U17)
  deriving DecidableEq, Repr

/-- What a host read gives back (70_reset_and_hazards.md R190). -/
inductive ReadData where
  | err (v : Byte)
  | csumV (v : Bool)
  | csum (v : U16)
  | outLen (v : U17)
  | outBuf (off : U17) (v : Byte)
  deriving DecidableEq, Repr

/-- The three things the host can do to the block (70_reset_and_hazards.md R190). -/
inductive HostEvent where
  /-- hand over one whole descriptor; its length is `DLEN` -/
  | issue (d : List Byte)
  /-- read one latch field -/
  | read (f : LatchField)
  /-- the reset input -/
  | reset
  deriving DecidableEq, Repr

/-- The machine. `res` is the spec's; the other fields are the model's own (assumptions 2, 4 and 5). -/
structure State where
  /-- the result latch -/
  res       : Latch
  /-- what the host does next, oldest first -/
  pending   : List HostEvent
  /-- the answer to the host's last read; `none` while it has not read -/
  readData  : Option ReadData
  /-- numbers the free values of `CSUM` (`Config.freeCsum`) -/
  freeCount : Nat
  deriving DecidableEq, Repr

/-- The stops that are faults. No command raises one of them on a descriptor. -/
inductive Fault where
  /-- A host read names an offset at or above `OUT_MAX`, where `OUT_BUF` has no byte (20_memory.md R33,
  assumption 7). Raised by `readLatch`. Safe. -/
  | noSuchOutOffset (off : Nat)
  /-- A result of more than `OUT_MAX` bytes. Raised by `writeLatch` only for a term of `Instr` that is not
  well-formed, which no descriptor decodes to (assumption 7). Safe. -/
  | outBufOverrun (len : Nat)
  deriving DecidableEq, Repr

/-- The stops that are refusals. No command raises one of them on a descriptor. -/
inductive Refusal where
  /-- An instruction without a meaning. Raised by no arm of this model. Safe. -/
  | notModelled (mnemonic : String)
  /-- A host read of `CSUM` while `CSUM_V = 0` (10_state.md R16, 93_implementation_defined.md U1: `refuse`).
  Raised by `readLatch`. Safe. -/
  | csumHasNoValue
  /-- A host read of `OUT_BUF` at an offset at or above `OUT_LEN` (10_state.md R17,
  93_implementation_defined.md U1: `refuse`). Raised by `readLatch`. Safe. -/
  | outBufHasNoValue (off : Nat)
  deriving DecidableEq, Repr

/-- The latch after reset (10_state.md R24, 70_reset_and_hazards.md R180). `CSUM` has no value there; the
0 is the model's and can not be read (DESIGN CHOICE, assumption 1). -/
def Latch.reset : Latch := { err := 0x00#8, csumV := false, csum := 0#16, outLen := 0#17, outBuf := [] }

/-- The machine right after reset: the latch as 10_state.md R24 says, the host yet to act. -/
def State.reset : State := { res := Latch.reset, pending := [], readData := none, freeCount := 0 }

end Sys2Proof.Machine
end

