-- ==== Sys2Proof/Machine/Ops.lean ====
section
/-! DEFINITION. The named operations over the state: reading and writing `OUT_BUF`, writing the latch at the end of a command (10_state.md R15), raising a failure (60_exceptions.md R158), resetting the block, and the host's reads. -/

namespace Sys2Proof.Machine

/-- What a step or a meaning answers. -/
abbrev Result := Host.Outcome State Fault Refusal

/-! ### OUT_BUF -/

/-- The canonical form: offsets strictly rising. Nothing listed can equal what an unlisted offset reads as,
which is no value. -/
abbrev Memory.wf (m : Memory) : Prop := (m.map Prod.fst).Pairwise (· < ·)

/-- The byte at offset `a`, or none where that offset holds no value. -/
def Memory.read (m : Memory) (a : Nat) : Option Byte :=
  match m with
  | [] => none
  | (k, b) :: rest => if k = a then some b else Memory.read rest a

/-- One byte stored at offset `a`, in canonical form. -/
def Memory.write (m : Memory) (a : Nat) (v : Byte) : Memory :=
  match m with
  | [] => [(a, v)]
  | (k, b) :: rest =>
    if a < k then (a, v) :: (k, b) :: rest
    else if a = k then (a, v) :: rest
    else (k, b) :: Memory.write rest a v

/-- `MemWrite(off, n, v)`: byte `v[k]` at offset `off + k` (20_memory.md R33). -/
def Memory.writeBytes (m : Memory) (off : Nat) (v : List Byte) : Memory :=
  match v with
  | [] => m
  | b :: rest => Memory.write (Memory.writeBytes m (off + 1) rest) off b

/-! ### The end of a command -/

/-- The outcome codes of `ERR` (60_exceptions.md R150). -/
def errCode (e : CmdError) : Byte :=
  match e with
  | .invalidAddress => 0x01#8
  | .unsupportedPacketKind => 0x02#8
  | .transmitError => 0x03#8
  | .illegalCommand => 0x80#8

/-- What `CSUM` holds where the spec gives it no value (assumption 2). -/
def noCsum (s : State) : U16 := Config.freeCsum s.freeCount

/-- The end of every command: the whole latch is written (10_state.md R15). `OUT_BUF` starts without a value
at any offset, for every byte below the new `OUT_LEN` is then written and every byte at or above it has no value. -/
def writeLatch (r : CmdResult) (s : State) : Result :=
  match r with
  | .okU16 c =>
    .next { s with res := { err := 0x00#8, csumV := true, csum := c, outLen := 0#17, outBuf := [] } }
  | .okBytes b =>
    if b.length ≤ Config.outMax then
      .next { s with
        res := { err := 0x00#8, csumV := false, csum := noCsum s, outLen := BitVec.ofNat 17 b.length,
                 outBuf := Memory.writeBytes [] 0 b },
        freeCount := s.freeCount + 1 }
    else .fault (.outBufOverrun b.length)
  | .error e =>
    .next { s with
      res := { err := errCode e, csumV := false, csum := noCsum s, outLen := 0#17, outBuf := [] },
      freeCount := s.freeCount + 1 }

/-- `raise e`: the one way a failure is taken (60_exceptions.md R158). Nothing is saved, no mode changes,
control goes nowhere; there is no return operation and nothing to restore (60_exceptions.md R160). -/
def raise (e : CmdError) (s : State) : Result := writeLatch (.error e) s

/-! ### Reset and host reads -/

/-- The reset input between two commands (70_reset_and_hazards.md R180, R181): the latch takes its reset
state; what the host has yet to do and has read is not the block's (assumption 6). -/
def resetBlock (s : State) : State := { s with res := Latch.reset }

/-- The value of a latch field (70_reset_and_hazards.md R190). A field without a value is refused (10_state.md
R16, R17; 93_implementation_defined.md U1). -/
def readLatch (f : LatchField) (r : Latch) : Host.Outcome ReadData Fault Refusal :=
  match f with
  | .err => .next (.err r.err)
  | .csumV => .next (.csumV r.csumV)
  | .csum => if r.csumV then .next (.csum r.csum) else .refused .csumHasNoValue
  | .outLen => .next (.outLen r.outLen)
  | .outBuf off =>
    if Config.outMax ≤ off.toNat then .fault (.noSuchOutOffset off.toNat)
    else if off.toNat < r.outLen.toNat then
      match Memory.read r.outBuf off.toNat with
      | some b => .next (.outBuf off b)
      | none => .refused (.outBufHasNoValue off.toNat)
    else .refused (.outBufHasNoValue off.toNat)

/-- A host read: the answer goes to `readData` and nothing of the block changes (10_state.md R18). -/
def hostRead (f : LatchField) (s : State) : Result :=
  match readLatch f s.res with
  | .next d => .next { s with readData := some d }
  | .fault e => .fault e
  | .refused e => .refused e

/-! ### Programs -/

/-- A program: descriptors the host issues one after another (70_reset_and_hazards.md R192). -/
def issueAll (ds : List (List Byte)) (s : State) : State :=
  { s with pending := s.pending ++ ds.map HostEvent.issue }

end Sys2Proof.Machine
end

