-- ==== Sys2Proof/Machine/Operands.lean ====
section
/-! DEFINITION. What the commands share about their operands: the address check (60_exceptions.md R151, R156) and the two computed lengths (43_tcp_header.md R122, 44_packet_assembler.md R139). -/

namespace Sys2Proof.Machine

/-- `AV[0] = 1` and `AV[1] = 1`: both addresses parsed (30_encoding.md R54). -/
def addrsValid (av : AddrValid) : Bool := av.sv && av.dv

/-- The address check, before anything is built: `InvalidAddress` if either bit is 0 (60_exceptions.md R151),
else what follows it. It does not say which address was bad. -/
def withAddresses (av : AddrValid) (s : State) (body : Result) : Result :=
  if addrsValid av then body else raise .invalidAddress s

/-- The TCP segment length, `trunc_16(20 + len(payload))` (43_tcp_header.md R122). -/
def segmentLength (payload : List Byte) : U16 := trunc16 (20 + payload.length)

/-- The IPv4 total length, `trunc_16(20 + inner + len(payload))` (44_packet_assembler.md R139). -/
def totalLength (inner : Nat) (payload : List Byte) : U16 := trunc16 (20 + inner + payload.length)

end Sys2Proof.Machine
end

