-- ==== Sys2Proof/Machine/Checksum.lean ====
section
/-! DEFINITION. ChecksumEngine: the Internet checksum (40_checksum.md R80 to R84), the equal 16-bit adder (R87), and the meaning of `CSUM` (R88). -/

namespace Sys2Proof.Machine

/-- `pad(B)`: one zero byte after a string of odd length (40_checksum.md R81). -/
def pad (b : List Byte) : List Byte := if b.length % 2 = 0 then b else b ++ [0x00#8]

/-- The big-endian 16-bit words of a string of even length (20_memory.md R35). -/
def words (b : List Byte) : List Nat :=
  match b with
  | hi :: lo :: rest => (hi.toNat * 256 + lo.toNat) :: words rest
  | _ => []

/-- `wsum(B)`: the exact sum of the words of the padded string (40_checksum.md R81). -/
def wsum (b : List Byte) : Nat := (words (pad b)).sum

/-- One pass of the fold: `(S >> 16) + (S & 0xFFFF)` (40_checksum.md R82). -/
def foldPass (s : Nat) : Nat := (s >>> 16) + (s &&& 0xFFFF)

/-- The fold's loop, at most `fuel` passes. -/
def foldLoop (fuel s : Nat) : Nat :=
  match fuel with
  | 0 => s
  | n + 1 => if s ≤ 0xFFFF then s else foldLoop n (foldPass s)

/-- `fold(S)`: passes until 16 bits hold the sum (40_checksum.md R82). Each pass gives a smaller number, so
`S` passes are more than enough. -/
def fold (s : Nat) : Nat := foldLoop s s

/-- The one's complement of a 16-bit value (40_checksum.md R83). -/
def complement16 (f : U16) : U16 := ~~~f

/-- `csum(B) = 0xFFFF - fold(wsum(B))` (40_checksum.md R84), returned as it is: no zero is replaced. -/
def csum (b : List Byte) : U16 := complement16 (BitVec.ofNat 16 (fold (wsum b)))

/-- One word into the 16-bit accumulator, with end-around carry (40_checksum.md R87). -/
def adderStep (acc w : Nat) : Nat :=
  if acc + w > 0xFFFF then ((acc + w) &&& 0xFFFF) + 1 else acc + w

/-- The accumulator after the words `ws`, from 0 (40_checksum.md R87). -/
def adderAcc (ws : List Nat) : Nat := ws.foldl adderStep 0

/-- The checksum as a 16-bit adder computes it (40_checksum.md R87). -/
def adderCsum (b : List Byte) : U16 := BitVec.ofNat 16 (0xFFFF - adderAcc (words (pad b)))

/-- `CSUM` (40_checksum.md R88). -/
def execCsum (buf : List Byte) (s : State) : Result := writeLatch (.okU16 (csum buf)) s

end Sys2Proof.Machine
end

