-- ==== Sys2Proof/Machine/Icmp.lean ====
section
/-! DEFINITION. ICMPHeaderCodec: the 8-byte echo header (42_icmp_header.md R111, layout 30_encoding.md R66) and the meaning of `ICMPHDR` (R112). -/

namespace Sys2Proof.Machine

/-- The header with checksum 0 (42_icmp_header.md R111). -/
def icmphdr0 (p : IcmpPart) : List Byte :=
  [p.icmpType, p.icmpCode, 0x00#8, 0x00#8] ++ be16 p.id ++ be16 p.seq

/-- `icmphdr(type, code, id, seq, payload)`: the checksum covers header and payload, the result is the header
alone (42_icmp_header.md R110, R111). -/
def icmphdr (p : IcmpPart) (payload : List Byte) : List Byte :=
  let h0 := icmphdr0 p
  splice h0 2 (be16 (csum (h0 ++ payload)))

/-- `ICMPHDR` (42_icmp_header.md R112): it takes no address and checks none. -/
def execIcmphdr (icmp : IcmpPart) (payload : List Byte) (s : State) : Result :=
  writeLatch (.okBytes (icmphdr icmp payload)) s

end Sys2Proof.Machine
end

