-- ==== Sys2Proof/Machine/Ipv4.lean ====
section
/-! DEFINITION. IPv4HeaderCodec: the 20-byte header (41_ipv4_header.md R101, layout 30_encoding.md R65) and the meaning of `IP4HDR` (R102). -/

namespace Sys2Proof.Machine

/-- `0x45`: version 4 high, header length 5 low (30_encoding.md R70; PRESUMED there, assumption 12). -/
def verIhl : Byte := 0x45#8

/-- The first pass of the two-pass build: the header with checksum 0 (41_ipv4_header.md R101). Type of service
and flags/fragment are always 0 (R104). -/
def ip4hdr0 (src dst : IPv4Addr) (proto : Byte) (tlen : U16) (ttl : Byte) (ipid : U16) : List Byte :=
  [verIhl, 0x00#8] ++ be16 tlen ++ be16 ipid ++ [0x00#8, 0x00#8] ++ [ttl, proto] ++ [0x00#8, 0x00#8]
    ++ addrBytes src ++ addrBytes dst

/-- `ip4hdr(src, dst, proto, tlen, ttl, ipid)` (41_ipv4_header.md R101). `tlen` is neither computed nor
checked (R103). -/
def ip4hdr (src dst : IPv4Addr) (proto : Byte) (tlen : U16) (ttl : Byte) (ipid : U16) : List Byte :=
  let h0 := ip4hdr0 src dst proto tlen ttl ipid
  splice h0 10 (be16 (csum h0))

/-- `IP4HDR` (41_ipv4_header.md R102, R107). -/
def execIp4hdr (proto : Byte) (ip : IpPart) (tlen : U16) (s : State) : Result :=
  withAddresses ip.av s
    (writeLatch (.okBytes (ip4hdr ip.src ip.dst proto tlen ip.ttl ip.ipid)) s)

end Sys2Proof.Machine
end

