-- ==== Sys2Proof/Machine/Flags.lean ====
section
/-! DEFINITION. The block has no status flags or condition codes (10_state.md R13). The only flags it handles are an operand: the TCP flag bits (30_encoding.md R69) and the offset/flags field they go into (R71). -/

namespace Sys2Proof.Machine

/-- The six names of the TCP `flags` bitmask (30_encoding.md R69). -/
inductive TcpFlag where
  | fin
  | syn
  | rst
  | psh
  | ack
  | urg
  deriving DecidableEq, Repr

/-- The bit of each name (30_encoding.md R69; the values are general knowledge there: PRESUMED,
assumption 12). Only the assembler syntax uses them: the block treats `flags` as data. -/
def tcpFlagBit (f : TcpFlag) : Byte :=
  match f with
  | .fin => 0x01#8
  | .syn => 0x02#8
  | .rst => 0x04#8
  | .psh => 0x08#8
  | .ack => 0x10#8
  | .urg => 0x20#8

/-- `flags` from names joined by `|`; no name is 0 (30_encoding.md R73). -/
def tcpFlagsOf (fs : List TcpFlag) : Byte :=
  match fs with
  | [] => 0x00#8
  | f :: rest => tcpFlagBit f ||| tcpFlagsOf rest

/-- The offset/flags field: `0x5000 + flags`, the data offset 5 in bits 15:12, zero in bits 11:8, all 8 bits
of the operand in bits 7:0 (30_encoding.md R71; the packing is general knowledge there: PRESUMED, assumption 12). -/
def offsetFlags (flags : Byte) : U16 := 0x5000#16 + flags.setWidth 16

end Sys2Proof.Machine
end

