-- ==== Sys2Proof/Machine/Tcp.lean ====
section
/-! DEFINITION. TCPHeaderCodec: the pseudo-header (43_tcp_header.md R122, layout 30_encoding.md R68), the 20-byte header (R123, layout 30_encoding.md R67) and the meaning of `TCPHDR` (R124). -/

namespace Sys2Proof.Machine

/-- `pseudo(src, dst, seglen)`, 12 bytes that only feed the checksum (43_tcp_header.md R122). -/
def pseudo (src dst : IPv4Addr) (seglen : U16) : List Byte :=
  addrBytes src ++ addrBytes dst ++ [0x00#8, 0x06#8] ++ be16 seglen

/-- The header with checksum 0 (43_tcp_header.md R123); the urgent pointer is always 0 (R126). -/
def tcphdr0 (p : TcpPart) : List Byte :=
  be16 p.sport ++ be16 p.dport ++ be32 p.seqn ++ be32 p.ackn ++ be16 (offsetFlags p.flags)
    ++ be16 p.win ++ [0x00#8, 0x00#8] ++ [0x00#8, 0x00#8]

/-- `tcphdr(...)`: the checksum covers pseudo-header, header and payload, the result is the header alone
(43_tcp_header.md R120, R123). -/
def tcphdr (p : TcpPart) (src dst : IPv4Addr) (payload : List Byte) : List Byte :=
  let h0 := tcphdr0 p
  let ph := pseudo src dst (segmentLength payload)
  splice h0 16 (be16 (csum (ph ++ h0 ++ payload)))

/-- `TCPHDR` (43_tcp_header.md R124, R130). -/
def execTcphdr (addr : AddrPart) (tcp : TcpPart) (payload : List Byte) (s : State) : Result :=
  withAddresses addr.av s (writeLatch (.okBytes (tcphdr tcp addr.src addr.dst payload)) s)

end Sys2Proof.Machine
end

