-- ==== Sys2Proof/Machine/Assemble.lean ====
section
/-! DEFINITION. PacketAssembler: the packet IP header ‖ inner header ‖ payload (44_packet_assembler.md R139, 30_encoding.md R72) and the meanings of the three forms of `ASSEMBLE` (R136, R137, R138). -/

namespace Sys2Proof.Machine

/-- The packet around an inner header: the IPv4 header with the true total length, the inner header, the
payload, in that order (44_packet_assembler.md R139). -/
def packet (ip : IpPart) (proto : Byte) (inner payload : List Byte) : List Byte :=
  ip4hdr ip.src ip.dst proto (totalLength inner.length payload) ip.ttl ip.ipid ++ inner ++ payload

/-- `ASSEMBLE kind=ICMP` (44_packet_assembler.md R136, R144). -/
def execAssembleIcmp (ip : IpPart) (icmp : IcmpPart) (payload : List Byte) (s : State) : Result :=
  withAddresses ip.av s (writeLatch (.okBytes (packet ip 0x01#8 (icmphdr icmp payload) payload)) s)

/-- `ASSEMBLE kind=TCP` (44_packet_assembler.md R137, R144): the same two addresses serve the IPv4 header and
the pseudo-header. -/
def execAssembleTcp (ip : IpPart) (tcp : TcpPart) (payload : List Byte) (s : State) : Result :=
  withAddresses ip.av s
    (writeLatch (.okBytes (packet ip 0x06#8 (tcphdr tcp ip.src ip.dst payload) payload)) s)

/-- `ASSEMBLE` of an unsupported kind (44_packet_assembler.md R138): the address check, then always
`UnsupportedPacketKind`; nothing else of the operands is used. -/
def execAssembleUnsupported (_kind : Byte) (ip : IpPart) (s : State) : Result :=
  withAddresses ip.av s (raise .unsupportedPacketKind s)

end Sys2Proof.Machine
end

