-- ==== Sys2Proof/Machine/Dispatch.lean ====
section
/-! DEFINITION. One arm per command: its meaning. -/

namespace Sys2Proof.Machine

/-- A decoded command, executed as one atomic step `RES <- exec(D)` (20_memory.md R38). -/
def exec (i : Instr) (s : State) : Host.Outcome State Fault Refusal :=
  match i with
  | .csum buf => Sys2Proof.Machine.execCsum buf s
  | .ip4hdr proto ip tlen => Sys2Proof.Machine.execIp4hdr proto ip tlen s
  | .icmphdr icmp payload => Sys2Proof.Machine.execIcmphdr icmp payload s
  | .tcphdr addr tcp payload => Sys2Proof.Machine.execTcphdr addr tcp payload s
  | .assembleIcmp ip icmp payload => Sys2Proof.Machine.execAssembleIcmp ip icmp payload s
  | .assembleTcp ip tcp payload => Sys2Proof.Machine.execAssembleTcp ip tcp payload s
  | .assembleUnsupported kind ip => Sys2Proof.Machine.execAssembleUnsupported kind ip s

end Sys2Proof.Machine
end

