-- ==== Sys2Proof/Machine/Step.lean ====
section
/-! DEFINITION. One step of the machine: the host's oldest pending interaction (70_reset_and_hazards.md R190) is served whole. -/

namespace Sys2Proof.Machine

/-- A descriptor that has arrived whole: decoded, then executed; one the decoder rejects ends with
`IllegalCommand` (30_encoding.md R53, 60_exceptions.md R154, R156). -/
def runDescriptor (d : List Byte) (s : State) : Host.Outcome State Fault Refusal :=
  match decode d with
  | .ok i => exec i s
  | .error _ => raise .illegalCommand s

/-- One step. With nothing pending the block is idle, and idleness has no state (60_exceptions.md R171). -/
def step (s : State) : Host.Outcome State Fault Refusal :=
  match s.pending with
  | [] => .next s
  | .issue d :: rest => runDescriptor d { s with pending := rest }
  | .read f :: rest => hostRead f { s with pending := rest }
  | .reset :: rest => .next (resetBlock { s with pending := rest })

/-- The state whose next step runs the instruction of a table word: the host issues its descriptor first. -/
def State.withFetchWord (s : State) (nbits w : Nat) : State :=
  { s with pending := .issue (tableDescriptor nbits w) :: s.pending }

end Sys2Proof.Machine
end

