-- ==== Sys2Proof/Machine/Asm.lean ====
section
/-! DEFINITION. The spec's assembler (30_encoding.md R73 to R75): one command per line as text, turned into a command and its descriptor. What the grammar leaves open is in assumption 11. -/

namespace Sys2Proof.Machine

/-- Why a line is no command (30_encoding.md R73, R74). -/
inductive AsmError where
  /-- an open bracket or quote, or an operand without `=` -/
  | badToken
  /-- the first word is no operation name -/
  | unknownOperation
  /-- an operand the operation does not take -/
  | unknownOperand
  /-- an operand given twice -/
  | duplicateOperand
  /-- an operand without default is omitted (30_encoding.md R74; 93_implementation_defined.md U5, U6) -/
  | missingOperand
  /-- a value that does not parse or does not fit its width -/
  | badValue
  deriving DecidableEq, Repr

/-! ### Words of a line -/

/-- The quotation mark. -/
def quoteChar : Char := Char.ofNat 34

/-- What separates operands. -/
def isBlank (c : Char) : Bool := c == ' ' || c == '\t'

/-- Where the lexer stands. -/
inductive LexMode where
  | plain
  | bracket
  | quote
  deriving DecidableEq, Repr

/-- A finished word, kept in reverse while it grows, put before the words that follow it. -/
def flushWord (cur : List Char) (ws : List (List Char)) : List (List Char) :=
  match cur with
  | [] => ws
  | _ :: _ => cur.reverse :: ws

/-- The words of a line: blanks separate, `;` starts a comment, a bracketed or quoted value is kept whole
(30_encoding.md R73). -/
def lexLine (mode : LexMode) (cur : List Char) (cs : List Char) :
    Except AsmError (List (List Char)) :=
  match cs with
  | [] =>
    match mode with
    | .plain => .ok (flushWord cur [])
    | .bracket => .error .badToken
    | .quote => .error .badToken
  | c :: rest =>
    match mode with
    | .bracket => lexLine (if c = ']' then .plain else .bracket) (c :: cur) rest
    | .quote => lexLine (if c = quoteChar then .plain else .quote) (c :: cur) rest
    | .plain =>
      if c = ';' then .ok (flushWord cur [])
      else if isBlank c then
        match lexLine .plain [] rest with
        | .ok ws => .ok (flushWord cur ws)
        | .error e => .error e
      else lexLine (if c = '[' then .bracket else if c = quoteChar then .quote else .plain)
        (c :: cur) rest

/-- A text cut at every character that satisfies `p`. -/
def splitChars (p : Char → Bool) (cs : List Char) : List (List Char) :=
  match cs with
  | [] => [[]]
  | c :: rest =>
    if p c then [] :: splitChars p rest
    else
      match splitChars p rest with
      | [] => [[c]]
      | w :: ws => (c :: w) :: ws

/-- Every element through `f`, or none if one fails. -/
def allSome {α β : Type} (f : α → Option β) (xs : List α) : Option (List β) :=
  match xs with
  | [] => some []
  | x :: rest =>
    match f x, allSome f rest with
    | some y, some ys => some (y :: ys)
    | _, _ => none

/-! ### Values -/

/-- A decimal digit. -/
def decDigit (c : Char) : Option Nat :=
  if 48 ≤ c.toNat ∧ c.toNat ≤ 57 then some (c.toNat - 48) else none

/-- A hexadecimal digit of either case. -/
def hexDigit (c : Char) : Option Nat :=
  if 48 ≤ c.toNat ∧ c.toNat ≤ 57 then some (c.toNat - 48)
  else if 97 ≤ c.toNat ∧ c.toNat ≤ 102 then some (c.toNat - 87)
  else if 65 ≤ c.toNat ∧ c.toNat ≤ 70 then some (c.toNat - 55)
  else none

/-- The number the digits spell after `acc`. -/
def digitsFrom (base : Nat) (digit : Char → Option Nat) (acc : Nat) (cs : List Char) : Option Nat :=
  match cs with
  | [] => some acc
  | c :: rest =>
    match digit c with
    | some v => digitsFrom base digit (acc * base + v) rest
    | none => none

/-- A decimal number: at least one digit. -/
def decNumber (cs : List Char) : Option Nat :=
  match cs with
  | [] => none
  | _ :: _ => digitsFrom 10 decDigit 0 cs

/-- A hexadecimal number without its `0x`: at least one digit. -/
def hexNumber (cs : List Char) : Option Nat :=
  match cs with
  | [] => none
  | _ :: _ => digitsFrom 16 hexDigit 0 cs

/-- A decimal or `0x` hexadecimal number (30_encoding.md R73). -/
def number (cs : List Char) : Option Nat :=
  if cs.take 2 = ['0', 'x'] then hexNumber (cs.drop 2) else decNumber cs

/-- A number that fits `w` bits (30_encoding.md R73: `<u8>`, `<u16>`, `<u32>`). -/
def numberW (w : Nat) (cs : List Char) : Option (BitVec w) :=
  match number cs with
  | some n => if n < 2 ^ w then some (BitVec.ofNat w n) else none
  | none => none

/-- Two hexadecimal digits. -/
def hexByte (cs : List Char) : Option Byte :=
  match cs with
  | [h, l] =>
    match hexDigit h, hexDigit l with
    | some a, some b => some (BitVec.ofNat 8 (a * 16 + b))
    | _, _ => none
  | _ => none

/-- One ASCII character. -/
def asciiByte (c : Char) : Option Byte :=
  if c.toNat < 128 ∧ c ≠ quoteChar then some (BitVec.ofNat 8 c.toNat) else none

/-- The text between a first character `o` and a last character `c`. -/
def unwrap (o c : Char) (cs : List Char) : Option (List Char) :=
  match cs with
  | [] => none
  | x :: rest => if x = o ∧ rest.getLast? = some c then some rest.dropLast else none

/-- `<bytes>`: hex bytes in brackets or ASCII in quotes, of a length `PLEN` can hold (30_encoding.md R73). -/
def bytesValue (cs : List Char) : Option (List Byte) :=
  let bytes :=
    match unwrap '[' ']' cs with
    | some body => allSome hexByte ((splitChars isBlank body).filter (fun w => w ≠ []))
    | none =>
      match unwrap quoteChar quoteChar cs with
      | some body => allSome asciiByte body
      | none => none
  match bytes with
  | some b => if b.length ≤ Config.plenMax then some b else none
  | none => none

/-- One of the six flag names (30_encoding.md R69, R73). -/
def flagName (cs : List Char) : Option TcpFlag :=
  if cs = "FIN".toList then some .fin
  else if cs = "SYN".toList then some .syn
  else if cs = "RST".toList then some .rst
  else if cs = "PSH".toList then some .psh
  else if cs = "ACK".toList then some .ack
  else if cs = "URG".toList then some .urg
  else none

/-- `<flags>`: a `u8` number or names joined by `|` (30_encoding.md R73). -/
def flagsValue (cs : List Char) : Option Byte :=
  match numberW 8 cs with
  | some v => some v
  | none =>
    match allSome flagName (splitChars (fun c => c == '|') cs) with
    | some fs => some (tcpFlagsOf fs)
    | none => none

/-- One of the four numbers of an address literal: decimal, 0 to 255. -/
def octet (cs : List Char) : Option Byte :=
  match decNumber cs with
  | some n => if n ≤ 255 then some (BitVec.ofNat 8 n) else none
  | none => none

/-- `<addr>`: the verdict and the four bytes. Four decimal numbers 0 to 255 separated by dots are valid; any
other string is not, with bytes `00 00 00 00` (30_encoding.md R75). -/
def addrLiteral (cs : List Char) : Bool × IPv4Addr :=
  match (splitChars (fun c => c == '.') cs).map octet with
  | [some a, some b, some c, some d] => (true, { o0 := a, o1 := b, o2 := c, o3 := d })
  | _ => (false, { o0 := 0#8, o1 := 0#8, o2 := 0#8, o3 := 0#8 })

/-- `kind=`: `ICMP` is 1, `TCP` is 6, a number is that `MOD` (30_encoding.md R73). -/
def kindValue (cs : List Char) : Option Byte :=
  if cs = "ICMP".toList then some 0x01#8
  else if cs = "TCP".toList then some 0x06#8
  else numberW 8 cs

/-! ### Operands -/

/-- The operands of a line, `name=value`. -/
abbrev Operands := List (List Char × List Char)

/-- A word cut at its first `=`. -/
def splitOperand (cs : List Char) : Option (List Char × List Char) :=
  match cs with
  | [] => none
  | c :: rest =>
    if c = '=' then some ([], rest)
    else
      match splitOperand rest with
      | some (n, v) => some (c :: n, v)
      | none => none

/-- The value given for a name. -/
def operand (ops : Operands) (name : String) : Option (List Char) :=
  (ops.find? (fun p => p.1 == name.toList)).map Prod.snd

/-- A required operand (30_encoding.md R74: no other operand may be omitted). -/
def required {α : Type} (ops : Operands) (name : String) (parse : List Char → Option α) :
    Except AsmError α :=
  match operand ops name with
  | none => .error .missingOperand
  | some v =>
    match parse v with
    | some x => .ok x
    | none => .error .badValue

/-- `ttl=`, the one operand with a default: 255 where it is omitted (30_encoding.md R74). -/
def ttlOperand (ops : Operands) : Except AsmError Byte :=
  match operand ops "ttl" with
  | none => .ok 255#8
  | some v =>
    match numberW 8 v with
    | some x => .ok x
    | none => .error .badValue

/-- Only the operands of the operation, each at most once, in any order (30_encoding.md R73). -/
def onlyOperands (names : List String) (ops : Operands) : Except AsmError Unit :=
  if ¬ (ops.all (fun p => names.any (fun n => p.1 == n.toList))) then .error .unknownOperand
  else if ¬ (ops.map Prod.fst).Nodup then .error .duplicateOperand
  else .ok ()

/-- `src=` and `dst=`: their verdicts and bytes. -/
def addrOperands (ops : Operands) : Except AsmError AddrPart := do
  let src ← required ops "src" (fun cs => some (addrLiteral cs))
  let dst ← required ops "dst" (fun cs => some (addrLiteral cs))
  return { av := { sv := src.1, dv := dst.1 }, src := src.2, dst := dst.2 }

/-- The IPv4 operands: `src`, `dst`, `ttl`, `ipid`. -/
def ipOperands (ops : Operands) : Except AsmError IpPart := do
  let a ← addrOperands ops
  let ttl ← ttlOperand ops
  let ipid ← required ops "ipid" (numberW 16)
  return { av := a.av, ttl := ttl, ipid := ipid, src := a.src, dst := a.dst }

/-- The ICMP operands: `type`, `code`, `id`, `seq`. -/
def icmpOperands (ops : Operands) : Except AsmError IcmpPart := do
  let t ← required ops "type" (numberW 8)
  let c ← required ops "code" (numberW 8)
  let i ← required ops "id" (numberW 16)
  let q ← required ops "seq" (numberW 16)
  return { icmpType := t, icmpCode := c, id := i, seq := q }

/-- The TCP operands: `sport`, `dport`, `seq`, `ack`, `flags`, `win`. -/
def tcpOperands (ops : Operands) : Except AsmError TcpPart := do
  let sp ← required ops "sport" (numberW 16)
  let dp ← required ops "dport" (numberW 16)
  let sq ← required ops "seq" (numberW 32)
  let ak ← required ops "ack" (numberW 32)
  let fl ← required ops "flags" flagsValue
  let w ← required ops "win" (numberW 16)
  return { flags := fl, sport := sp, dport := dp, seqn := sq, ackn := ak, win := w }

/-! ### Commands -/

/-- `CSUM buf=<bytes>` -/
def asmCsum (ops : Operands) : Except AsmError Instr := do
  onlyOperands ["buf"] ops
  let b ← required ops "buf" bytesValue
  return .csum b

/-- `IP4HDR src= dst= proto= total_length= [ttl=] ipid=` -/
def asmIp4hdr (ops : Operands) : Except AsmError Instr := do
  onlyOperands ["src", "dst", "proto", "total_length", "ttl", "ipid"] ops
  let ip ← ipOperands ops
  let p ← required ops "proto" (numberW 8)
  let tl ← required ops "total_length" (numberW 16)
  return .ip4hdr p ip tl

/-- `ICMPHDR type= code= id= seq= payload=` -/
def asmIcmphdr (ops : Operands) : Except AsmError Instr := do
  onlyOperands ["type", "code", "id", "seq", "payload"] ops
  let icmp ← icmpOperands ops
  let b ← required ops "payload" bytesValue
  return .icmphdr icmp b

/-- `TCPHDR sport= dport= seq= ack= flags= win= src= dst= payload=` -/
def asmTcphdr (ops : Operands) : Except AsmError Instr := do
  onlyOperands ["sport", "dport", "seq", "ack", "flags", "win", "src", "dst", "payload"] ops
  let tcp ← tcpOperands ops
  let a ← addrOperands ops
  let b ← required ops "payload" bytesValue
  return .tcphdr a tcp b

/-- `ASSEMBLE kind=...`: the operands after the kind are those of its `MOD` value (30_encoding.md R73). -/
def asmAssemble (ops : Operands) : Except AsmError Instr := do
  let kind ← required ops "kind" kindValue
  if kind = 0x01#8 then
    onlyOperands ["kind", "src", "dst", "ttl", "ipid", "type", "code", "id", "seq", "payload"] ops
    let ip ← ipOperands ops
    let icmp ← icmpOperands ops
    let b ← required ops "payload" bytesValue
    return .assembleIcmp ip icmp b
  else if kind = 0x06#8 then
    onlyOperands ["kind", "src", "dst", "ttl", "ipid", "sport", "dport", "seq", "ack", "flags",
      "win", "payload"] ops
    let ip ← ipOperands ops
    let tcp ← tcpOperands ops
    let b ← required ops "payload" bytesValue
    return .assembleTcp ip tcp b
  else
    onlyOperands ["kind", "src", "dst", "ttl", "ipid"] ops
    let ip ← ipOperands ops
    return .assembleUnsupported kind ip

/-- An operation name and its operands. -/
def asmCommand (op : List Char) (ops : Operands) : Except AsmError Instr :=
  if op = "CSUM".toList then asmCsum ops
  else if op = "IP4HDR".toList then asmIp4hdr ops
  else if op = "ICMPHDR".toList then asmIcmphdr ops
  else if op = "TCPHDR".toList then asmTcphdr ops
  else if op = "ASSEMBLE".toList then asmAssemble ops
  else .error .unknownOperation

/-- One line: a command, or nothing on a blank or comment line (30_encoding.md R73). -/
def asmLine (line : List Char) : Except AsmError (Option Instr) :=
  match lexLine .plain [] line with
  | .error e => .error e
  | .ok [] => .ok none
  | .ok (op :: rest) =>
    match allSome splitOperand rest with
    | none => .error .badToken
    | some ops =>
      match asmCommand op ops with
      | .ok i => .ok (some i)
      | .error e => .error e

/-- The descriptors of a list of lines; the assembler fills each as the format lays it out
(30_encoding.md R73, R55 to R61). -/
def asmLines (lines : List (List Char)) : Except AsmError (List (List Byte)) :=
  match lines with
  | [] => .ok []
  | l :: rest =>
    match asmLine l, asmLines rest with
    | .ok (some i), .ok ds => .ok (encode i :: ds)
    | .ok none, .ok ds => .ok ds
    | .error e, _ => .error e
    | _, .error e => .error e

/-- A program as text, one command per line (30_encoding.md R73, 70_reset_and_hazards.md R192). -/
def asmProgram (text : List Char) : Except AsmError (List (List Byte)) :=
  asmLines (splitChars (fun c => c == '\n') text)

end Sys2Proof.Machine
end

