-- ==== Sys2Proof/Safety.lean ====
section
/-! DEFINITION. The terms claims are stated in: what the host can see of the latch, the latch each outcome leaves, which outcome codes the block writes, and the invariant of a machine that has run. -/

namespace Sys2Proof

open Sys2Proof.Machine

/-- What the host can learn from the latch by reading it (10_state.md R14 to R17): `CSUM` only while
`CSUM_V = 1`. -/
structure Visible where
  err    : Byte
  csumV  : Bool
  csum   : Option U16
  outLen : U17
  outBuf : Memory
  deriving DecidableEq, Repr

/-- The visible part of a latch. -/
def visible (r : Latch) : Visible :=
  { err := r.err, csumV := r.csumV, csum := if r.csumV then some r.csum else none,
    outLen := r.outLen, outBuf := r.outBuf }

/-- The latch of a successful `CSUM` (10_state.md R15, `Ok_u16(c)`). -/
def HoldsU16 (r : Latch) (c : U16) : Prop :=
  r.err = 0x00#8 ∧ r.csumV = true ∧ r.csum = c ∧ r.outLen = 0#17
    ∧ ∀ k, Memory.read r.outBuf k = none

/-- The latch of a successful header or packet command (10_state.md R15, `Ok_bytes(S)`): the bytes at offsets
below their number, no value anywhere else. -/
def HoldsBytes (r : Latch) (b : List Byte) : Prop :=
  r.err = 0x00#8 ∧ r.csumV = false ∧ r.outLen.toNat = b.length
    ∧ ∀ k, Memory.read r.outBuf k = b[k]?

/-- The latch of a failed command (10_state.md R15, `Error(e)`): its code and nothing readable. -/
def HoldsError (r : Latch) (code : Byte) : Prop :=
  r.err = code ∧ r.csumV = false ∧ r.outLen = 0#17 ∧ ∀ k, Memory.read r.outBuf k = none

/-- What is not the block's is as it was: the host's remaining interactions and its last read. -/
def HostUnchanged (s t : State) : Prop := t.pending = s.pending ∧ t.readData = s.readData

/-- The verdict on the addresses of a command that has an `AV` byte (30_encoding.md R54). -/
def addrVerdict (i : Instr) : Option AddrValid :=
  match i with
  | .csum _ => none
  | .ip4hdr _ ip _ => some ip.av
  | .icmphdr _ _ => none
  | .tcphdr addr _ _ => some addr.av
  | .assembleIcmp ip _ _ => some ip.av
  | .assembleTcp ip _ _ => some ip.av
  | .assembleUnsupported _ ip => some ip.av

/-- `ASSEMBLE` of a kind the block does not support (30_encoding.md R61). -/
def unsupportedForm (i : Instr) : Bool :=
  match i with
  | .csum _ => false
  | .ip4hdr _ _ _ => false
  | .icmphdr _ _ => false
  | .tcphdr _ _ _ => false
  | .assembleIcmp _ _ _ => false
  | .assembleTcp _ _ _ => false
  | .assembleUnsupported _ _ => true

/-- The `TTL` operand of a command that has one. -/
def ttlOf (i : Instr) : Option Byte :=
  match i with
  | .csum _ => none
  | .ip4hdr _ ip _ => some ip.ttl
  | .icmphdr _ _ => none
  | .tcphdr _ _ _ => none
  | .assembleIcmp ip _ _ => some ip.ttl
  | .assembleTcp ip _ _ => some ip.ttl
  | .assembleUnsupported _ ip => some ip.ttl

/-- The operands a line of the assembler syntax must give (30_encoding.md R73, R74: all but `ttl`). -/
def mandatoryOperands (i : Instr) : List String :=
  match i with
  | .csum _ => ["buf"]
  | .ip4hdr _ _ _ => ["src", "dst", "proto", "total_length", "ipid"]
  | .icmphdr _ _ => ["type", "code", "id", "seq", "payload"]
  | .tcphdr _ _ _ => ["sport", "dport", "seq", "ack", "flags", "win", "src", "dst", "payload"]
  | .assembleIcmp _ _ _ => ["kind", "src", "dst", "ipid", "type", "code", "id", "seq", "payload"]
  | .assembleTcp _ _ _ =>
    ["kind", "src", "dst", "ipid", "sport", "dport", "seq", "ack", "flags", "win", "payload"]
  | .assembleUnsupported _ _ => ["kind", "src", "dst", "ipid"]

/-- The decimal digit `d`. -/
def digitChar (d : Nat) : Char := Char.ofNat (48 + d)

/-- An octet in decimal without leading zeros, as an address literal writes it (30_encoding.md R75). -/
def decimalOctet (b : Byte) : List Char :=
  let n := b.toNat
  if n < 10 then [digitChar n]
  else if n < 100 then [digitChar (n / 10), digitChar (n % 10)]
  else [digitChar (n / 100), digitChar (n / 10 % 10), digitChar (n % 10)]

/-- The codes the block writes into `ERR` (60_exceptions.md R150, R153): never `0x03`, never a reserved one. -/
abbrev writtenCode (e : Byte) : Prop := e = 0x00#8 ∨ e = 0x01#8 ∨ e = 0x02#8 ∨ e = 0x80#8

/-- A latch some command or reset has written: `OUT_BUF` in canonical form with a value at exactly the offsets
below `OUT_LEN`, `OUT_LEN` at most 65575, a written code in `ERR`, no result beside an error, and not both
kinds of result at once (10_state.md R14, R15, R17). -/
abbrev LatchInv (r : Latch) : Prop :=
  Memory.wf r.outBuf
  ∧ r.outBuf.map Prod.fst = List.range r.outLen.toNat
  ∧ r.outLen.toNat ≤ Config.outMax
  ∧ writtenCode r.err
  ∧ (r.err ≠ 0x00#8 → r.csumV = false ∧ r.outLen = 0#17)
  ∧ (r.csumV = true → r.outLen = 0#17)

/-- A descriptor the command channel can deliver (20_memory.md R31). -/
def deliverable (e : HostEvent) : Bool :=
  match e with
  | .issue d => decide (d.length ≤ Config.dlenMax)
  | .read _ => true
  | .reset => true

/-- The invariant of the machine: such a latch, and only deliverable descriptors waiting. -/
abbrev MachineInv (s : State) : Prop :=
  LatchInv s.res ∧ ∀ e ∈ s.pending, deliverable e = true

end Sys2Proof
end

