-- ==== Sys2Proof/Certificates/Slice0/Obligations.lean ====
section
/-! DEFINITION. The statements for the provers, from the numbered rules of spec/. -/

open Sys2Proof Sys2Proof.Machine

/-! ### Descriptors -/

/-- Decoding the descriptor of a well-formed command gives the command back, with every operand at every value
its field admits (30_encoding.md R53 to R62). -/
def Obligations.DecodeEncode : Prop :=
  ∀ i : Instr, i.WellFormed → decode (encode i) = .ok i

/-- A descriptor the decoder accepts is the descriptor of what it reads: no byte is dropped, padded or
ignored. Only format AX ignores bytes (30_encoding.md R61: `PLEN` and everything from offset 16 on); there the
encoder's zeros for the ignored bytes are the model's choice (assumption 9). -/
def Obligations.EncodeDecode : Prop :=
  ∀ (d : List Byte) (i : Instr), decode d = .ok i →
    encode i = if unsupportedForm i then [0x05#8, byteAt d 1, 0x00#8, 0x00#8] ++ slice d 4 16 else d

/-- Everything the decoder answers is well-formed: a payload is never longer than `PLEN` can say, and an
unsupported kind is neither 1 nor 6 (30_encoding.md R50, R61, R62). -/
def Obligations.DecodeWellFormed : Prop :=
  ∀ (d : List Byte) (i : Instr), decode d = .ok i → i.WellFormed

/-- The decoder, format by format, at the absolute offsets of the tables (30_encoding.md R53, R55 to R61): it
reads command `i` from `d` exactly when `d` has the shape of `i`'s format and `i` the operands at its offsets. -/
def Obligations.DecodeShape : Prop :=
  ∀ (d : List Byte) (i : Instr), decode d = .ok i ↔
    (4 ≤ d.length ∧ byteAt d 0 = 0x01#8 ∧ byteAt d 1 = 0x00#8
      ∧ d.length = 4 + (be16At d 2).toNat ∧ i = .csum (d.drop 4))
    ∨ (d.length = 18 ∧ byteAt d 0 = 0x02#8 ∧ be16At d 2 = 0#16
      ∧ (byteAt d 4).toNat < 4
      ∧ i = .ip4hdr (byteAt d 1)
          { av := { sv := (byteAt d 4).getLsbD 0, dv := (byteAt d 4).getLsbD 1 },
            ttl := byteAt d 5, ipid := be16At d 6, src := addrAt d 8, dst := addrAt d 12 }
          (be16At d 16))
    ∨ (d.length = 10 + (be16At d 2).toNat ∧ byteAt d 0 = 0x03#8 ∧ byteAt d 1 = 0x00#8
      ∧ i = .icmphdr
          { icmpType := byteAt d 4, icmpCode := byteAt d 5, id := be16At d 6, seq := be16At d 8 }
          (d.drop 10))
    ∨ (d.length = 28 + (be16At d 2).toNat ∧ byteAt d 0 = 0x04#8 ∧ byteAt d 1 = 0x00#8
      ∧ (byteAt d 4).toNat < 4
      ∧ i = .tcphdr
          { av := { sv := (byteAt d 4).getLsbD 0, dv := (byteAt d 4).getLsbD 1 },
            src := addrAt d 5, dst := addrAt d 9 }
          { flags := byteAt d 13, sport := be16At d 14, dport := be16At d 16, seqn := be32At d 18,
            ackn := be32At d 22, win := be16At d 26 }
          (d.drop 28))
    ∨ (d.length = 22 + (be16At d 2).toNat ∧ byteAt d 0 = 0x05#8 ∧ byteAt d 1 = 0x01#8
      ∧ (byteAt d 4).toNat < 4
      ∧ i = .assembleIcmp
          { av := { sv := (byteAt d 4).getLsbD 0, dv := (byteAt d 4).getLsbD 1 },
            ttl := byteAt d 5, ipid := be16At d 6, src := addrAt d 8, dst := addrAt d 12 }
          { icmpType := byteAt d 16, icmpCode := byteAt d 17, id := be16At d 18,
            seq := be16At d 20 }
          (d.drop 22))
    ∨ (d.length = 31 + (be16At d 2).toNat ∧ byteAt d 0 = 0x05#8 ∧ byteAt d 1 = 0x06#8
      ∧ (byteAt d 4).toNat < 4
      ∧ i = .assembleTcp
          { av := { sv := (byteAt d 4).getLsbD 0, dv := (byteAt d 4).getLsbD 1 },
            ttl := byteAt d 5, ipid := be16At d 6, src := addrAt d 8, dst := addrAt d 12 }
          { flags := byteAt d 16, sport := be16At d 17, dport := be16At d 19, seqn := be32At d 21,
            ackn := be32At d 25, win := be16At d 29 }
          (d.drop 31))
    ∨ (16 ≤ d.length ∧ byteAt d 0 = 0x05#8 ∧ byteAt d 1 ≠ 0x01#8 ∧ byteAt d 1 ≠ 0x06#8
      ∧ (byteAt d 4).toNat < 4
      ∧ i = .assembleUnsupported (byteAt d 1)
          { av := { sv := (byteAt d 4).getLsbD 0, dv := (byteAt d 4).getLsbD 1 },
            ttl := byteAt d 5, ipid := be16At d 6, src := addrAt d 8, dst := addrAt d 12 })

/-- Five descriptors written out in the spec's examples and the commands they stand for (40_checksum.md R88,
41_ipv4_header.md R102, 42_icmp_header.md R112, 43_tcp_header.md R124, 44_packet_assembler.md R138). -/
def Obligations.ExampleDescriptorsDecode : Prop :=
  decode [0x01#8, 0x00#8, 0x00#8, 0x01#8, 0x01#8] = .ok (.csum [0x01#8])
  ∧ decode [0x02#8, 0x01#8, 0x00#8, 0x00#8, 0x03#8, 0xff#8, 0x00#8, 0x00#8, 0x7f#8, 0x00#8, 0x00#8, 0x01#8, 0x7f#8, 0x00#8, 0x00#8,
      0x01#8, 0x00#8, 0x1c#8]
    = .ok (.ip4hdr 1
        { av := ⟨true, true⟩, ttl := 255, ipid := 0, src := ⟨127, 0, 0, 1⟩, dst := ⟨127, 0, 0, 1⟩ }
        28)
  ∧ decode [0x03#8, 0x00#8, 0x00#8, 0x04#8, 0x08#8, 0x00#8, 0x00#8, 0x01#8, 0x00#8, 0x01#8, 0x70#8, 0x69#8, 0x6e#8, 0x67#8]
    = .ok (.icmphdr { icmpType := 8, icmpCode := 0, id := 1, seq := 1 } [0x70#8, 0x69#8, 0x6e#8, 0x67#8])
  ∧ decode [0x04#8, 0x00#8, 0x00#8, 0x00#8, 0x03#8, 0x0a#8, 0x00#8, 0x00#8, 0x01#8, 0x0a#8, 0x00#8, 0x00#8, 0x02#8, 0x02#8, 0x30#8,
      0x39#8, 0x00#8, 0x50#8, 0x00#8, 0x00#8, 0x00#8, 0x00#8, 0x00#8, 0x00#8, 0x00#8, 0x00#8, 0xff#8, 0xff#8]
    = .ok (.tcphdr { av := ⟨true, true⟩, src := ⟨10, 0, 0, 1⟩, dst := ⟨10, 0, 0, 2⟩ }
        { flags := 2, sport := 12345, dport := 80, seqn := 0, ackn := 0, win := 0xffff } [])
  ∧ decode [0x05#8, 0x11#8, 0x00#8, 0x00#8, 0x03#8, 0xff#8, 0x00#8, 0x00#8, 0x0a#8, 0x00#8, 0x00#8, 0x01#8, 0x0a#8, 0x00#8, 0x00#8,
      0x02#8]
    = .ok (.assembleUnsupported 17
        { av := ⟨true, true⟩, ttl := 255, ipid := 0, src := ⟨10, 0, 0, 1⟩, dst := ⟨10, 0, 0, 2⟩ })

/-! ### The step -/

/-- When the host's oldest interaction issues a descriptor that decodes to `i`, the step is `exec i` on the
state with that descriptor gone (20_memory.md R38: one atomic step `RES <- exec(D)`). -/
def Obligations.StepRunsDecoded : Prop :=
  ∀ (s : State) (d : List Byte) (rest : List HostEvent) (i : Instr),
    s.pending = .issue d :: rest → decode d = .ok i → step s = exec i { s with pending := rest }

/-- A word of the opcode table that decodes to `i` runs `i` as the next step. -/
def Obligations.StepRunsTableWord : Prop :=
  ∀ (s : State) (nbits w : Nat) (i : Instr),
    decodeTableWord nbits w = some i → step (s.withFetchWord nbits w) = exec i s

/-- A descriptor of one of the illegal shapes ends with `IllegalCommand` (`ERR = 0x80`), nothing readable and
the host's side untouched; a descriptor of any other shape does not (30_encoding.md R63, 60_exceptions.md R154). -/
def Obligations.IllegalCommand : Prop :=
  ∀ (s : State) (d : List Byte) (rest : List HostEvent), s.pending = .issue d :: rest →
    ∃ t, step s = .next t ∧ HostUnchanged { s with pending := rest } t ∧
      (if d.length < 4
          ∨ byteAt d 0 = 0x00#8 ∨ 0x06 ≤ (byteAt d 0).toNat
          ∨ (byteAt d 0 ∈ [0x01#8, 0x03#8, 0x04#8] ∧ byteAt d 1 ≠ 0x00#8)
          ∨ (byteAt d 0 = 0x02#8 ∧ be16At d 2 ≠ 0#16)
          ∨ (byteAt d 0 ∈ [0x02#8, 0x04#8, 0x05#8] ∧ 4 ≤ (byteAt d 4).toNat)
          ∨ (byteAt d 0 = 0x01#8 ∧ d.length ≠ 4 + (be16At d 2).toNat)
          ∨ (byteAt d 0 = 0x02#8 ∧ d.length ≠ 18)
          ∨ (byteAt d 0 = 0x03#8 ∧ d.length ≠ 10 + (be16At d 2).toNat)
          ∨ (byteAt d 0 = 0x04#8 ∧ d.length ≠ 28 + (be16At d 2).toNat)
          ∨ (byteAt d 0 = 0x05#8 ∧ byteAt d 1 = 0x01#8 ∧ d.length ≠ 22 + (be16At d 2).toNat)
          ∨ (byteAt d 0 = 0x05#8 ∧ byteAt d 1 = 0x06#8 ∧ d.length ≠ 31 + (be16At d 2).toNat)
          ∨ (byteAt d 0 = 0x05#8 ∧ d.length < 16)
        then HoldsError t.res 0x80#8
        else t.res.err ≠ 0x80#8)

/-- With nothing pending the block is idle and a step changes nothing. That idling is a step is the model's
choice (assumption 5); that idleness has no state is 60_exceptions.md R171. -/
def Obligations.StepIdle : Prop := ∀ s : State, s.pending = [] → step s = .next s

/-- The reset input (70_reset_and_hazards.md R180): `ERR = 0x00`, `CSUM_V = 0`, `OUT_LEN = 0`, `CSUM` and every
byte of `OUT_BUF` without a value the host could read, whatever the latch held; the next descriptor runs. -/
def Obligations.StepReset : Prop :=
  ∀ (s : State) (rest : List HostEvent), s.pending = .reset :: rest →
    ∃ t, step s = .next t ∧ HostUnchanged { s with pending := rest } t
      ∧ t.res.err = 0x00#8 ∧ t.res.csumV = false ∧ t.res.outLen = 0#17
      ∧ readLatch .csum t.res = .refused .csumHasNoValue
      ∧ ∀ k, Memory.read t.res.outBuf k = none

/-- The latch the host sees if it reads before any command (10_state.md R24): no error, no checksum, no
output, and no value in `CSUM` or at any offset of `OUT_BUF`. -/
def Obligations.ResetLatch : Prop :=
  readLatch .err State.reset.res = .next (.err 0x00#8)
  ∧ readLatch .csumV State.reset.res = .next (.csumV false)
  ∧ readLatch .outLen State.reset.res = .next (.outLen 0)
  ∧ readLatch .csum State.reset.res = .refused .csumHasNoValue
  ∧ ∀ off : U17, off.toNat < 65575 →
      readLatch (.outBuf off) State.reset.res = .refused (.outBufHasNoValue off.toNat)

/-! ### The checksum function -/

/-- The word sum (40_checksum.md R81): the sum over the big-endian words of the padded string; nothing for the
empty string; the last byte of an odd string is the high byte of its word. -/
def Obligations.WordSum : Prop :=
  (∀ b : List Byte,
    wsum b = ∑ k ∈ Finset.range ((pad b).length / 2),
      ((byteAt (pad b) (2 * k)).toNat * 256 + (byteAt (pad b) (2 * k + 1)).toNat)
    ∧ pad b = if b.length % 2 = 0 then b else b ++ [0x00#8])
  ∧ wsum [] = 0 ∧ wsum [0x01#8] = 0x0100

/-- The fold (40_checksum.md R82): it stops at 16 bits, else adds the high part to the low 16 bits and goes on;
each pass on more than 16 bits gives a smaller number, so it ends; `0x1FFFF` needs two passes. -/
def Obligations.FoldEquation : Prop :=
  (∀ s : Nat, fold s = if s ≤ 0xFFFF then s else fold (s / 65536 + s % 65536))
  ∧ (∀ s : Nat, 0xFFFF < s → s / 65536 + s % 65536 < s)
  ∧ fold 0x1FFFF = 0x0001

/-- The complement (40_checksum.md R83): `0xFFFF - f`, every one of the 16 bits inverted. -/
def Obligations.Complement : Prop :=
  ∀ f : U16, (complement16 f).toNat = 0xFFFF - f.toNat
    ∧ ∀ k, k < 16 → (complement16 f).getLsbD k = !f.getLsbD k

/-- `csum(B) = 0xFFFF - fold(wsum(B))` as numbers (40_checksum.md R84): the folded sum fits 16 bits, so nothing
is lost on the way, and no zero is replaced. -/
def Obligations.ChecksumFormula : Prop :=
  ∀ b : List Byte, fold (wsum b) ≤ 0xFFFF ∧ (csum b).toNat = 0xFFFF - fold (wsum b)

/-- The closed form of the fold. The spec infers it from rule R82 ("Closed form of the fold", marked derived
there as rule R85). -/
def Obligations.FoldClosedForm : Prop :=
  fold 0 = 0 ∧ ∀ s : Nat, 0 < s →
    fold s = (s - 1) % 65535 + 1 ∧ fold s ≤ 0xFFFF ∧ fold s ≠ 0
      ∧ (fold s = 0xFFFF ↔ 65535 ∣ s) ∧ fold s % 65535 = s % 65535

/-- Two passes fold every sum below `2^32` (the spec's inference in 45_absent_families.md R146 from rule R82). -/
def Obligations.FoldTwoPasses : Prop :=
  ∀ s : Nat, s < 2 ^ 32 →
    foldPass s ≤ 0x1FFFE ∧ foldPass (foldPass s) ≤ 0xFFFF
      ∧ fold s = if s ≤ 0xFFFF then s else if foldPass s ≤ 0xFFFF then foldPass s
          else foldPass (foldPass s)

/-- The 16-bit adder with end-around carry computes the same function: after each word the accumulator is the
fold of the sum so far, it is never 0 again once a non-zero word was added, and the result is `csum` (the spec's
inference in 40_checksum.md R87 from rules R81 and R82). -/
def Obligations.EndAroundCarryAdder : Prop :=
  ∀ b : List Byte,
    (∀ n, adderAcc ((words (pad b)).take n) = fold ((words (pad b)).take n).sum)
    ∧ (∀ n, (∃ w ∈ (words (pad b)).take n, w ≠ 0) → adderAcc ((words (pad b)).take n) ≠ 0)
    ∧ adderCsum b = csum b

/-- When the checksum takes its extreme values (40_checksum.md R89 laws 3 and 4, inferred there from R81 to R84):
`0xFFFF` exactly for strings of zero bytes, `0x0000` exactly when the word sum is a positive multiple of 65535. -/
def Obligations.ChecksumExtremes : Prop :=
  ∀ b : List Byte,
    (csum b = 0xFFFF#16 ↔ ∀ x ∈ b, x = 0x00#8)
    ∧ (csum b = 0x0000#16 ↔ 0 < wsum b ∧ 65535 ∣ wsum b)

/-- A trailing zero byte, or two, never changes a checksum (40_checksum.md R89 law 5; 90_conflicts.md C2). -/
def Obligations.TrailingZeroInvariance : Prop :=
  ∀ b : List Byte, csum (b ++ [0x00#8]) = csum b ∧ csum (b ++ [0x00#8, 0x00#8]) = csum b

/-- The word sum is additive at an even boundary, and not at every odd one (40_checksum.md R89 law 6). -/
def Obligations.EvenBoundaryAdditivity : Prop :=
  (∀ a b : List Byte, a.length % 2 = 0 → wsum (a ++ b) = wsum a + wsum b)
  ∧ ∃ a b : List Byte, a.length % 2 = 1 ∧ wsum (a ++ b) ≠ wsum a + wsum b

/-- Permuting whole words keeps the checksum; exchanging the two bytes of a word need not (40_checksum.md R89
law 7). -/
def Obligations.WordOrder : Prop :=
  (∀ a b : List Byte, a.length % 2 = 0 → b.length % 2 = 0 → (words a).Perm (words b) →
    csum a = csum b)
  ∧ ∃ x y : Byte, csum [x, y] ≠ csum [y, x]

/-- Self-verification (40_checksum.md R90): where the two bytes at an even offset are 0, putting the checksum of
the string there makes the checksum 0; if that checksum is 0 the string does not change. -/
def Obligations.SelfVerification : Prop :=
  ∀ (z : List Byte) (p : Nat), p % 2 = 0 → p + 1 < z.length → byteAt z p = 0x00#8 →
    byteAt z (p + 1) = 0x00#8 →
    csum (splice z p (be16 (csum z))) = 0x0000#16
      ∧ (csum z = 0x0000#16 → splice z p (be16 (csum z)) = z)

/-- A string of `n >= 1` words `FF FF` (40_checksum.md R91): sum `n * 0xFFFF`, fold `0xFFFF`, checksum 0. -/
def Obligations.AllOnesWords : Prop :=
  ∀ n : Nat, 1 ≤ n →
    wsum (List.replicate (2 * n) 0xFF#8) = n * 0xFFFF
      ∧ fold (n * 0xFFFF) = 0xFFFF ∧ csum (List.replicate (2 * n) 0xFF#8) = 0x0000#16

/-- A 32-bit accumulator holds the sum of any string of at most 65537 words, and so of every checksum input of
every command, the longest being the TCP input with a full payload (40_checksum.md R86). -/
def Obligations.AccumulatorWidth : Prop :=
  (∀ b : List Byte, b.length ≤ 2 * 65537 → wsum b ≤ 0xFFFFFFFF)
  ∧ ∀ (p : TcpPart) (src dst : IPv4Addr) (payload : List Byte), payload.length ≤ 65535 →
      (pseudo src dst (segmentLength payload) ++ tcphdr0 p ++ payload).length ≤ 65567
      ∧ wsum (pseudo src dst (segmentLength payload) ++ tcphdr0 p ++ payload) ≤ 2148499440

/-! ### CSUM -/

/-- `CSUM` (40_checksum.md R88): it always completes with the checksum of its buffer in `CSUM`, `CSUM_V = 1`,
`ERR = 0x00`, no bytes in `OUT_BUF`, everything outside the latch as it was. -/
def Obligations.CsumResult : Prop :=
  ∀ (buf : List Byte) (s : State),
    ∃ t, exec (.csum buf) s = .next t ∧ HoldsU16 t.res (csum buf) ∧ HostUnchanged s t
      ∧ t.freeCount = s.freeCount

/-- The host can verify with `CSUM` what the block built (40_checksum.md R88, R90): over a finished IPv4 header,
over a finished ICMP header and its payload, and over pseudo-header, finished TCP header and payload, the command
leaves `CSUM = 0x0000`. -/
def Obligations.CsumVerifiesHeaders : Prop :=
  ∀ (src dst : IPv4Addr) (proto ttl : Byte) (tlen ipid : U16) (icmp : IcmpPart) (tcp : TcpPart)
    (payload : List Byte) (s : State),
    (∃ t, exec (.csum (ip4hdr src dst proto tlen ttl ipid)) s = .next t ∧ HoldsU16 t.res 0x0000#16)
    ∧ (∃ t, exec (.csum (icmphdr icmp payload ++ payload)) s = .next t ∧ HoldsU16 t.res 0x0000#16)
    ∧ (∃ t, exec (.csum (pseudo src dst (BitVec.ofNat 16 (20 + payload.length))
          ++ tcphdr tcp src dst payload ++ payload)) s = .next t ∧ HoldsU16 t.res 0x0000#16)

/-! ### IP4HDR -/

/-- `IP4HDR` with valid addresses (41_ipv4_header.md R101, R102, wire format 30_encoding.md R65): it completes
with the 20 bytes of the header in `OUT_BUF`, whose checksum is that of the header with the checksum field 0. The
byte `0x45` rests on general knowledge of the spec (assumption 12). -/
def Obligations.Ip4hdrResult : Prop :=
  ∀ (proto : Byte) (ip : IpPart) (tlen : U16) (s : State), ip.av.sv = true → ip.av.dv = true →
    ∃ t, exec (.ip4hdr proto ip tlen) s = .next t ∧ HostUnchanged s t
      ∧ HoldsBytes t.res
          ([0x45#8, 0x00#8] ++ be16 tlen ++ be16 ip.ipid ++ [0x00#8, 0x00#8, ip.ttl, proto]
            ++ be16 (csum ([0x45#8, 0x00#8] ++ be16 tlen ++ be16 ip.ipid
                ++ [0x00#8, 0x00#8, ip.ttl, proto, 0x00#8, 0x00#8,
                    ip.src.o0, ip.src.o1, ip.src.o2, ip.src.o3,
                    ip.dst.o0, ip.dst.o1, ip.dst.o2, ip.dst.o3]))
            ++ [ip.src.o0, ip.src.o1, ip.src.o2, ip.src.o3,
                ip.dst.o0, ip.dst.o1, ip.dst.o2, ip.dst.o3])

/-- `InvalidAddress` in `IP4HDR` (41_ipv4_header.md R107): exactly when a validity bit is 0, whatever the four
bytes are; then nothing is readable. When both are 1 every address is accepted. -/
def Obligations.Ip4hdrAddressCheck : Prop :=
  ∀ (proto : Byte) (ip : IpPart) (tlen : U16) (s : State),
    ∃ t, exec (.ip4hdr proto ip tlen) s = .next t
      ∧ (if ip.av.sv = false ∨ ip.av.dv = false then HoldsError t.res 0x01#8
          else t.res.err = 0x00#8 ∧ t.res.outLen = 20#17)

/-- What every IPv4 header the block returns satisfies (41_ipv4_header.md R106, inferred there from R101): 20
bytes; its checksum field is the checksum of the header with that field 0; its checksum is 0; the field is never
`0xFFFF`. -/
def Obligations.Ip4HeaderProperties : Prop :=
  ∀ (src dst : IPv4Addr) (proto ttl : Byte) (tlen ipid : U16),
    (ip4hdr src dst proto tlen ttl ipid).length = 20
    ∧ csum (splice (ip4hdr src dst proto tlen ttl ipid) 10 [0x00#8, 0x00#8])
        = be16At (ip4hdr src dst proto tlen ttl ipid) 10
    ∧ csum (ip4hdr src dst proto tlen ttl ipid) = 0x0000#16
    ∧ be16At (ip4hdr src dst proto tlen ttl ipid) 10 ≠ 0xFFFF#16

/-! ### ICMPHDR -/

/-- `ICMPHDR` (42_icmp_header.md R111, R112, wire format 30_encoding.md R66): it always completes, with the 8
bytes of the header in `OUT_BUF`; the checksum covers header and payload, the payload is not copied. -/
def Obligations.IcmphdrResult : Prop :=
  ∀ (icmp : IcmpPart) (payload : List Byte) (s : State),
    ∃ t, exec (.icmphdr icmp payload) s = .next t ∧ HostUnchanged s t
      ∧ HoldsBytes t.res
          ([icmp.icmpType, icmp.icmpCode]
            ++ be16 (csum ([icmp.icmpType, icmp.icmpCode, 0x00#8, 0x00#8] ++ be16 icmp.id
                ++ be16 icmp.seq ++ payload))
            ++ be16 icmp.id ++ be16 icmp.seq)

/-- What every ICMP header the block returns satisfies (42_icmp_header.md R114, inferred there from R111): 8
bytes; header and payload verify to 0; the header alone need not; the checksum field takes every value. -/
def Obligations.IcmpHeaderProperties : Prop :=
  (∀ (icmp : IcmpPart) (payload : List Byte),
    (icmphdr icmp payload).length = 8 ∧ csum (icmphdr icmp payload ++ payload) = 0x0000#16)
  ∧ (∃ (icmp : IcmpPart) (payload : List Byte), csum (icmphdr icmp payload) ≠ 0x0000#16)
  ∧ ∀ v : U16, ∃ (icmp : IcmpPart) (payload : List Byte), be16At (icmphdr icmp payload) 2 = v

/-! ### TCPHDR -/

/-- `TCPHDR` with valid addresses (43_tcp_header.md R122 to R126, wire formats 30_encoding.md R67, R68): it
completes with the 20 bytes of the header in `OUT_BUF`; the checksum covers the pseudo-header with the truncated
segment length, the header and the payload, of which only the header is returned. The byte `0x50` before the flags
rests on general knowledge of the spec (assumption 12). -/
def Obligations.TcphdrResult : Prop :=
  ∀ (addr : AddrPart) (tcp : TcpPart) (payload : List Byte) (s : State),
    addr.av.sv = true → addr.av.dv = true →
    ∃ t, exec (.tcphdr addr tcp payload) s = .next t ∧ HostUnchanged s t
      ∧ HoldsBytes t.res
          (be16 tcp.sport ++ be16 tcp.dport ++ be32 tcp.seqn ++ be32 tcp.ackn ++ [0x50#8, tcp.flags]
            ++ be16 tcp.win
            ++ be16 (csum ([addr.src.o0, addr.src.o1, addr.src.o2, addr.src.o3,
                    addr.dst.o0, addr.dst.o1, addr.dst.o2, addr.dst.o3, 0x00#8, 0x06#8]
                  ++ be16 (BitVec.ofNat 16 ((20 + payload.length) % 65536))
                  ++ be16 tcp.sport ++ be16 tcp.dport ++ be32 tcp.seqn ++ be32 tcp.ackn
                  ++ [0x50#8, tcp.flags] ++ be16 tcp.win ++ [0x00#8, 0x00#8, 0x00#8, 0x00#8] ++ payload))
            ++ [0x00#8, 0x00#8])

/-- `InvalidAddress` in `TCPHDR` (43_tcp_header.md R130): if `SV = 0` or `DV = 0`, nothing is built. -/
def Obligations.TcphdrAddressCheck : Prop :=
  ∀ (addr : AddrPart) (tcp : TcpPart) (payload : List Byte) (s : State),
    ∃ t, exec (.tcphdr addr tcp payload) s = .next t
      ∧ (if addr.av.sv = false ∨ addr.av.dv = false then HoldsError t.res 0x01#8
          else t.res.err = 0x00#8 ∧ t.res.outLen = 20#17)

/-- What every TCP header the block returns satisfies (43_tcp_header.md R128, inferred there from R123): 20
bytes; it verifies to 0 with pseudo-header and payload and need not without; its checksum field is never
`0xFFFF`; and two destinations give the same field exactly when their word sums agree modulo 65535. -/
def Obligations.TcpHeaderProperties : Prop :=
  (∀ (tcp : TcpPart) (src dst : IPv4Addr) (payload : List Byte),
    (tcphdr tcp src dst payload).length = 20
    ∧ csum (pseudo src dst (segmentLength payload) ++ tcphdr tcp src dst payload ++ payload)
        = 0x0000#16
    ∧ be16At (tcphdr tcp src dst payload) 16 ≠ 0xFFFF#16)
  ∧ (∃ (tcp : TcpPart) (src dst : IPv4Addr) (payload : List Byte),
      csum (tcphdr tcp src dst payload ++ payload) ≠ 0x0000#16)
  ∧ ∀ (tcp : TcpPart) (src d1 d2 : IPv4Addr) (payload : List Byte),
      be16At (tcphdr tcp src d1 payload) 16 = be16At (tcphdr tcp src d2 payload) 16
        ↔ wsum (addrBytes d1) % 65535 = wsum (addrBytes d2) % 65535

/-! ### ASSEMBLE -/

/-- `ASSEMBLE kind=ICMP` with valid addresses (44_packet_assembler.md R136, R139): it completes with IPv4 header,
ICMP header and payload in `OUT_BUF`, protocol 1 and total length `trunc_16(28 + PLEN)`. -/
def Obligations.AssembleIcmpResult : Prop :=
  ∀ (ip : IpPart) (icmp : IcmpPart) (payload : List Byte) (s : State),
    payload.length ≤ 65535 → ip.av.sv = true → ip.av.dv = true →
    ∃ t, exec (.assembleIcmp ip icmp payload) s = .next t ∧ HostUnchanged s t
      ∧ HoldsBytes t.res
          (ip4hdr ip.src ip.dst 0x01#8 (BitVec.ofNat 16 ((28 + payload.length) % 65536)) ip.ttl ip.ipid
            ++ icmphdr icmp payload ++ payload)

/-- `ASSEMBLE kind=TCP` with valid addresses (44_packet_assembler.md R137, R139): it completes with IPv4 header,
TCP header and payload in `OUT_BUF`, protocol 6 and total length `trunc_16(40 + PLEN)`; one pair of addresses
serves both headers. -/
def Obligations.AssembleTcpResult : Prop :=
  ∀ (ip : IpPart) (tcp : TcpPart) (payload : List Byte) (s : State),
    payload.length ≤ 65535 → ip.av.sv = true → ip.av.dv = true →
    ∃ t, exec (.assembleTcp ip tcp payload) s = .next t ∧ HostUnchanged s t
      ∧ HoldsBytes t.res
          (ip4hdr ip.src ip.dst 0x06#8 (BitVec.ofNat 16 ((40 + payload.length) % 65536)) ip.ttl ip.ipid
            ++ tcphdr tcp ip.src ip.dst payload ++ payload)

/-- `ASSEMBLE` of an unsupported kind with valid addresses (44_packet_assembler.md R138): it always ends with
`UnsupportedPacketKind`, `ERR = 0x02`, and builds nothing. -/
def Obligations.AssembleUnsupportedResult : Prop :=
  ∀ (kind : Byte) (ip : IpPart) (s : State), ip.av.sv = true → ip.av.dv = true →
    ∃ t, exec (.assembleUnsupported kind ip) s = .next t ∧ HostUnchanged s t
      ∧ HoldsError t.res 0x02#8

/-- `InvalidAddress` in `ASSEMBLE` (44_packet_assembler.md R144): in all three forms, before anything is built
and before the kind is looked at. -/
def Obligations.AssembleAddressCheck : Prop :=
  ∀ (ip : IpPart) (icmp : IcmpPart) (tcp : TcpPart) (payload : List Byte) (kind : Byte) (s : State),
    ip.av.sv = false ∨ ip.av.dv = false →
    (∃ t, exec (.assembleIcmp ip icmp payload) s = .next t ∧ HoldsError t.res 0x01#8)
    ∧ (∃ t, exec (.assembleTcp ip tcp payload) s = .next t ∧ HoldsError t.res 0x01#8)
    ∧ (∃ t, exec (.assembleUnsupported kind ip) s = .next t ∧ HoldsError t.res 0x01#8)

/-- A packet is what the separate operations return, put together by the host (44_packet_assembler.md R141,
inferred there from R136, R137, R139): `A` from `IP4HDR`, `B` from the inner operation, then the payload. -/
def Obligations.AssembleEqualsParts : Prop :=
  ∀ (ip : IpPart) (icmp : IcmpPart) (tcp : TcpPart) (payload : List Byte) (s s₁ s₂ : State),
    payload.length ≤ 65535 → ip.av.sv = true → ip.av.dv = true →
    (∃ a b t t₁ t₂,
      exec (.ip4hdr 0x01#8 ip (trunc16 (28 + payload.length))) s₁ = .next t₁ ∧ HoldsBytes t₁.res a
      ∧ exec (.icmphdr icmp payload) s₂ = .next t₂ ∧ HoldsBytes t₂.res b
      ∧ exec (.assembleIcmp ip icmp payload) s = .next t ∧ HoldsBytes t.res (a ++ b ++ payload))
    ∧ (∃ a b t t₁ t₂,
      exec (.ip4hdr 0x06#8 ip (trunc16 (40 + payload.length))) s₁ = .next t₁ ∧ HoldsBytes t₁.res a
      ∧ exec (.tcphdr { av := ip.av, src := ip.src, dst := ip.dst } tcp payload) s₂ = .next t₂
      ∧ HoldsBytes t₂.res b
      ∧ exec (.assembleTcp ip tcp payload) s = .next t ∧ HoldsBytes t.res (a ++ b ++ payload))

/-- What every packet of the ICMP form satisfies (44_packet_assembler.md R142, inferred there): its length, its
version byte (assumption 12), total length and protocol fields, both checksums verifying, the payload unchanged at
its end. -/
def Obligations.IcmpPacketProperties : Prop :=
  ∀ (ip : IpPart) (icmp : IcmpPart) (payload : List Byte) (s : State),
    payload.length ≤ 65535 → ip.av.sv = true → ip.av.dv = true →
    ∃ t pkt, exec (.assembleIcmp ip icmp payload) s = .next t ∧ HoldsBytes t.res pkt
      ∧ pkt.length = 28 + payload.length ∧ byteAt pkt 0 = 0x45#8
      ∧ be16At pkt 2 = trunc16 pkt.length ∧ byteAt pkt 9 = 0x01#8
      ∧ csum (slice pkt 0 20) = 0x0000#16 ∧ csum (pkt.drop 20) = 0x0000#16
      ∧ pkt.drop 28 = payload

/-- What every packet of the TCP form satisfies (44_packet_assembler.md R142, inferred there): the same, with the
TCP checksum verifying over the pseudo-header rebuilt from the packet's own address bytes; the version byte rests on
assumption 12. -/
def Obligations.TcpPacketProperties : Prop :=
  ∀ (ip : IpPart) (tcp : TcpPart) (payload : List Byte) (s : State),
    payload.length ≤ 65535 → ip.av.sv = true → ip.av.dv = true →
    ∃ t pkt, exec (.assembleTcp ip tcp payload) s = .next t ∧ HoldsBytes t.res pkt
      ∧ pkt.length = 40 + payload.length ∧ byteAt pkt 0 = 0x45#8
      ∧ be16At pkt 2 = trunc16 pkt.length ∧ byteAt pkt 9 = 0x06#8
      ∧ csum (slice pkt 0 20) = 0x0000#16
      ∧ csum (slice pkt 12 20 ++ [0x00#8, 0x06#8] ++ be16 (trunc16 (pkt.length - 20)) ++ pkt.drop 20)
          = 0x0000#16
      ∧ pkt.drop 40 = payload

/-- The length fields are true exactly as far as 16 bits hold them (70_reset_and_hazards.md R188): payloads up to
65507 bytes for ICMP, 65495 for TCP, 65515 for the segment length. -/
def Obligations.LengthFieldsExact : Prop :=
  ∀ payload : List Byte, payload.length ≤ 65535 →
    ((totalLength 8 payload).toNat = 28 + payload.length ↔ payload.length ≤ 65507)
    ∧ ((totalLength 20 payload).toNat = 40 + payload.length ↔ payload.length ≤ 65495)
    ∧ ((segmentLength payload).toNat = 20 + payload.length ↔ payload.length ≤ 65515)

/-! ### Failures -/

/-- Which failure a command ends with (60_exceptions.md R156): `InvalidAddress` when it has addresses and one is
bad, whatever its kind; else `UnsupportedPacketKind` when its kind is not supported; else success. -/
def Obligations.FailurePriority : Prop :=
  ∀ (i : Instr) (s : State), i.WellFormed →
    ∃ t, exec i s = .next t ∧
      t.res.err =
        (if ∃ av, addrVerdict i = some av ∧ (av.sv = false ∨ av.dv = false) then 0x01#8
         else if unsupportedForm i = true then 0x02#8 else 0x00#8)

/-- A failed command leaves no result of its own and none of an earlier command: nothing of `CSUM` or `OUT_BUF`
can be read after it (60_exceptions.md R158, R159; 10_state.md R15). -/
def Obligations.FailuresLeaveNothing : Prop :=
  ∀ (s t : State) (d : List Byte) (rest : List HostEvent), s.pending = .issue d :: rest →
    step s = .next t → t.res.err ≠ 0x00#8 →
    t.res.csumV = false ∧ t.res.outLen = 0#17
      ∧ readLatch .csum t.res = .refused .csumHasNoValue
      ∧ ∀ off : U17, off.toNat < 65575 →
          readLatch (.outBuf off) t.res = .refused (.outBufHasNoValue off.toNat)

/-- Every descriptor of any bytes and any length ends with the latch written: no descriptor stops the block
(60_exceptions.md R154, R155). -/
def Obligations.EveryDescriptorCompletes : Prop :=
  ∀ (s : State) (d : List Byte) (rest : List HostEvent), s.pending = .issue d :: rest →
    ∃ t, step s = .next t ∧ HostUnchanged { s with pending := rest } t
      ∧ (t.res.err = 0x00#8 ∨ HoldsError t.res t.res.err) ∧ writtenCode t.res.err

/-! ### The latch and the host -/

/-- What no command touches, and what it leaves of `OUT_BUF`: the host's side is as it was, and every offset at or
above the new `OUT_LEN` holds no value, whatever an earlier command left there (10_state.md R15, R33). -/
def Obligations.CommandFrame : Prop :=
  ∀ (i : Instr) (s t : State), exec i s = .next t →
    HostUnchanged s t ∧ (∀ k, t.res.outLen.toNat ≤ k → Memory.read t.res.outBuf k = none)
      ∧ (∀ k, k < t.res.outLen.toNat → ∃ b, Memory.read t.res.outBuf k = some b)

/-- A command's result is a function of its descriptor alone: not of the latch, not of an earlier command
(10_state.md R11). What the host can see of the latch after it is the same from any two states. -/
def Obligations.LatchFunctionOfDescriptor : Prop :=
  ∀ (d : List Byte) (s s' : State) (rest rest' : List HostEvent),
    s.pending = .issue d :: rest → s'.pending = .issue d :: rest' →
    ∃ t t', step s = .next t ∧ step s' = .next t' ∧ visible t.res = visible t'.res

/-- Nothing persists between commands: after any run of descriptors the host sees exactly what the last
descriptor alone, issued to any other machine, leaves (70_reset_and_hazards.md R192, 60_exceptions.md R160,
10_state.md R15). -/
def Obligations.NothingPersists : Prop :=
  ∀ (ds : List (List Byte)) (d : List Byte) (s s' : State),
    s.pending = ds.map HostEvent.issue ++ [.issue d] → s'.pending = [.issue d] →
    ∃ t t' : State, Host.Core.run Sys2Proof.core (ds.length + 1) s = .next t
      ∧ Host.Core.run Sys2Proof.core 1 s' = .next t'
      ∧ t.pending = [] ∧ visible t.res = visible t'.res

/-- Host reads have no side effect and may be repeated (10_state.md R18): a read that answers changes nothing but
the host's own `readData`, and the same read after it answers the same. -/
def Obligations.ReadsHaveNoEffect : Prop :=
  ∀ (f : LatchField) (s t : State) (rest : List HostEvent), s.pending = .read f :: rest →
    step s = .next t →
    t.res = s.res ∧ t.freeCount = s.freeCount ∧ t.pending = rest
      ∧ ∃ v, readLatch f s.res = .next v ∧ t.readData = some v
          ∧ step { t with pending := .read f :: rest } = .next t

/-- The fields that always have a value answer with it, and `CSUM` answers exactly while `CSUM_V = 1`
(10_state.md R14, R16; a read without value is refused, 93_implementation_defined.md U1). -/
def Obligations.HostReadsFields : Prop :=
  ∀ (s : State) (rest : List HostEvent),
    (s.pending = .read .err :: rest →
      step s = .next { s with pending := rest, readData := some (.err s.res.err) })
    ∧ (s.pending = .read .csumV :: rest →
      step s = .next { s with pending := rest, readData := some (.csumV s.res.csumV) })
    ∧ (s.pending = .read .outLen :: rest →
      step s = .next { s with pending := rest, readData := some (.outLen s.res.outLen) })
    ∧ (s.pending = .read .csum :: rest →
      step s = if s.res.csumV = true
        then .next { s with pending := rest, readData := some (.csum s.res.csum) }
        else .refused .csumHasNoValue)

/-- The host reads `OUT_BUF` by offset (10_state.md R17, 20_memory.md R33): where the latch holds the bytes `b`,
every offset below their number answers its byte and every other offset of the buffer is refused. -/
def Obligations.HostReadsBytes : Prop :=
  ∀ (s : State) (rest : List HostEvent) (b : List Byte) (off : U17), HoldsBytes s.res b →
    off.toNat < 65575 → s.pending = .read (.outBuf off) :: rest →
    step s = if h : off.toNat < b.length
      then .next { s with pending := rest, readData := some (.outBuf off b[off.toNat]) }
      else .refused (.outBufHasNoValue off.toNat)

/-- The machine right after reset satisfies the invariant. -/
def Obligations.ResetInvariant : Prop := MachineInv State.reset

/-- Every step keeps the invariant: `OUT_BUF` stays in canonical form with a value at exactly the offsets below
`OUT_LEN`, which is at most 65575; `ERR` holds a code the block writes; an error stands beside no result; no
checksum stands beside bytes (10_state.md R14, R15, R17; 60_exceptions.md R150, R153). -/
def Obligations.StepKeepsInvariant : Prop :=
  ∀ s t : State, MachineInv s → step s = .next t → MachineInv t

/-! ### The assembler syntax -/

/-- Every command the assembler accepts is well-formed: its numbers fit their widths and its payload fits `PLEN`
(30_encoding.md R73). -/
def Obligations.AsmWellFormed : Prop :=
  ∀ (line : List Char) (i : Instr), asmLine line = .ok (some i) → i.WellFormed

/-- Defaults (30_encoding.md R74): an omitted `ttl=` is 255, and no other operand may be omitted. -/
def Obligations.AsmDefaults : Prop :=
  ∀ (op : List Char) (ops : Operands) (i : Instr), asmCommand op ops = .ok i →
    (operand ops "ttl" = none → ttlOf i = none ∨ ttlOf i = some 255#8)
    ∧ ∀ n ∈ mandatoryOperands i, (operand ops n).isSome = true

/-- Address literals (30_encoding.md R75): `a.b.c.d` in decimal gives the four bytes and a good verdict; a good
verdict is given only to four numbers 0 to 255 separated by dots; a bad one comes with bytes of zero. Which other
spellings of a number count as decimal (leading zeros) is the model's choice (assumption 11). -/
def Obligations.AddressLiteral : Prop :=
  (∀ a b c d : Byte,
    addrLiteral (decimalOctet a ++ '.' :: decimalOctet b ++ '.' :: decimalOctet c
        ++ '.' :: decimalOctet d)
      = (true, { o0 := a, o1 := b, o2 := c, o3 := d }))
  ∧ ∀ cs : List Char,
      if (addrLiteral cs).1 = true then
        ∃ w x y z : List Char, cs = w ++ '.' :: x ++ '.' :: y ++ '.' :: z
          ∧ octet w = some (addrLiteral cs).2.o0 ∧ octet x = some (addrLiteral cs).2.o1
          ∧ octet y = some (addrLiteral cs).2.o2 ∧ octet z = some (addrLiteral cs).2.o3
      else (addrLiteral cs).2 = { o0 := 0#8, o1 := 0#8, o2 := 0#8, o3 := 0#8 }
end

