-- ==== Sys2Proof/Laws/Bytes.lean ====
section
/-! SUPPORT. Byte strings: the small lemmas of the notation, and the lengths of every string a command builds. -/

namespace Sys2Proof.Laws

open Sys2Proof.Machine

@[simp] theorem byteAt_cons_zero (b : Byte) (l : List Byte) : byteAt (b :: l) 0 = b := rfl
@[simp] theorem byteAt_cons_succ (b : Byte) (l : List Byte) (i : Nat) :
    byteAt (b :: l) (i + 1) = byteAt l i := by
  simp [byteAt]

@[simp] theorem be16_length (v : U16) : (be16 v).length = 2 := rfl
@[simp] theorem be32_length (v : U32) : (be32 v).length = 4 := rfl
@[simp] theorem addrBytes_length (a : IPv4Addr) : (addrBytes a).length = 4 := rfl

/-- The two bytes of a `u16`, read back big-endian, are that `u16`. -/
theorem be16_join (v : U16) : v.extractLsb' 8 8 ++ v.extractLsb' 0 8 = v := by
  rw [BitVec.extractLsb'_append_extractLsb'_eq_extractLsb' (by omega)]
  simp

/-- The four bytes of a `u32`, read back big-endian, are that `u32`. -/
theorem be32_join (v : U32) :
    (v.extractLsb' 24 8 ++ v.extractLsb' 16 8) ++ (v.extractLsb' 8 8 ++ v.extractLsb' 0 8) = v := by
  rw [BitVec.extractLsb'_append_extractLsb'_eq_extractLsb' (by omega),
    BitVec.extractLsb'_append_extractLsb'_eq_extractLsb' (by omega),
    BitVec.extractLsb'_append_extractLsb'_eq_extractLsb' (by omega)]
  simp

theorem be16At_be16 (v : U16) (l : List Byte) : be16At (be16 v ++ l) 0 = v := by
  simpa [be16At, be16] using be16_join v

theorem be32At_be32 (v : U32) (l : List Byte) : be32At (be32 v ++ l) 0 = v := by
  simpa [be32At, be16At, be32] using be32_join v

/-- Two bytes joined into a `u16` split into the same two bytes. -/
theorem append_split (a b : Byte) :
    (a ++ b : U16).extractLsb' 8 8 = a ∧ (a ++ b : U16).extractLsb' 0 8 = b := by
  have ha := a.isLt
  have hb := b.isLt
  have h : (a ++ b : U16).toNat = a.toNat * 256 + b.toNat := by
    have := BitVec.toNat_append a b
    rw [this, ← Nat.shiftLeft_add_eq_or_of_lt hb, Nat.shiftLeft_eq]
  constructor <;> apply BitVec.eq_of_toNat_eq <;> rw [BitVec.extractLsb'_toNat, h] <;>
    simp only [Nat.shiftRight_eq_div_pow] <;> omega

/-- Writing back the `u16` read at an offset gives the two bytes there. -/
theorem be16_be16At (d : List Byte) (i : Nat) :
    be16 (be16At d i) = [byteAt d i, byteAt d (i + 1)] := by
  have := append_split (byteAt d i) (byteAt d (i + 1))
  rw [be16, be16At, this.1, this.2]

/-- Two `u16` joined into a `u32` are written one after the other. -/
theorem be32_append (x y : U16) : be32 (x ++ y) = be16 x ++ be16 y := by
  have hx := x.isLt
  have hy := y.isLt
  have h : (x ++ y : U32).toNat = x.toNat * 65536 + y.toNat := by
    have := BitVec.toNat_append x y
    rw [this, ← Nat.shiftLeft_add_eq_or_of_lt hy, Nat.shiftLeft_eq]
  simp only [be32, be16, List.cons_append, List.nil_append, List.cons.injEq, and_true]
  refine ⟨?_, ?_, ?_, ?_⟩ <;> apply BitVec.eq_of_toNat_eq <;>
    rw [BitVec.extractLsb'_toNat, BitVec.extractLsb'_toNat, h] <;>
    simp only [Nat.shiftRight_eq_div_pow] <;> omega

/-- Writing back the `u32` read at an offset gives the four bytes there. -/
theorem be32_be32At (d : List Byte) (i : Nat) :
    be32 (be32At d i) = [byteAt d i, byteAt d (i + 1), byteAt d (i + 2), byteAt d (i + 3)] := by
  rw [be32At, be32_append, be16_be16At, be16_be16At]
  rfl

/-- A string is its first bytes by offset, then the rest. -/
theorem bytes_expand (d : List Byte) (n : Nat) (h : n ≤ d.length) :
    d = (List.range n).map (byteAt d) ++ d.drop n := by
  conv_lhs => rw [← List.take_append_drop n d]
  congr 1
  apply List.ext_getElem
  · simp [h]
  · intro i h₁ h₂
    have hi : i < d.length := by
      simp only [List.length_take] at h₁
      omega
    simp only [List.getElem_take, List.getElem_map, List.getElem_range]
    exact (List.getD_eq_getElem _ _ hi).symm

/-- The upper byte of a `u16` is its quotient by 256, the lower byte its remainder. -/
theorem be16_toNat (v : U16) :
    (v.extractLsb' 8 8).toNat * 256 + (v.extractLsb' 0 8).toNat = v.toNat := by
  simp only [BitVec.extractLsb'_toNat, Nat.shiftRight_eq_div_pow]
  have := v.isLt
  omega

/-- Replacing a substring inside a string keeps its length. -/
theorem splice_length {b c : List Byte} {i : Nat} (h : i + c.length ≤ b.length) :
    (splice b i c).length = b.length := by
  simp only [splice, List.length_append, List.length_take, List.length_drop]
  omega

@[simp] theorem ip4hdr0_length (src dst : IPv4Addr) (proto : Byte) (tlen : U16) (ttl : Byte)
    (ipid : U16) : (ip4hdr0 src dst proto tlen ttl ipid).length = 20 := rfl

@[simp] theorem ip4hdr_length (src dst : IPv4Addr) (proto : Byte) (tlen : U16) (ttl : Byte)
    (ipid : U16) : (ip4hdr src dst proto tlen ttl ipid).length = 20 := rfl

@[simp] theorem icmphdr0_length (p : IcmpPart) : (icmphdr0 p).length = 8 := rfl

@[simp] theorem icmphdr_length (p : IcmpPart) (payload : List Byte) :
    (icmphdr p payload).length = 8 := rfl

@[simp] theorem pseudo_length (src dst : IPv4Addr) (n : U16) : (pseudo src dst n).length = 12 := rfl

@[simp] theorem tcphdr0_length (p : TcpPart) : (tcphdr0 p).length = 20 := rfl

@[simp] theorem tcphdr_length (p : TcpPart) (src dst : IPv4Addr) (payload : List Byte) :
    (tcphdr p src dst payload).length = 20 := rfl

@[simp] theorem packet_length (ip : IpPart) (proto : Byte) (inner payload : List Byte) :
    (packet ip proto inner payload).length = 20 + inner.length + payload.length := by
  simp [packet, Nat.add_assoc]

end Sys2Proof.Laws
end

