-- ==== Sys2Proof/Laws/Checksum.lean ====
section
/-! SUPPORT. The recursion equations of the word sum and of the fold's loop. -/

namespace Sys2Proof.Laws

open Sys2Proof.Machine

@[simp] theorem words_nil : words [] = [] := rfl
@[simp] theorem words_cons_cons (hi lo : Byte) (l : List Byte) :
    words (hi :: lo :: l) = (hi.toNat * 256 + lo.toNat) :: words l := rfl

/-- The pad falls after the last byte, so two leading bytes stand before it. -/
theorem pad_cons_cons (hi lo : Byte) (l : List Byte) : pad (hi :: lo :: l) = hi :: lo :: pad l := by
  simp only [pad, List.length_cons, show l.length + 1 + 1 = l.length + 2 by omega,
    Nat.add_mod_right]
  split <;> simp

@[simp] theorem wsum_nil : wsum [] = 0 := rfl
@[simp] theorem wsum_singleton (b : Byte) : wsum [b] = b.toNat * 256 := by
  simp [wsum, pad]
@[simp] theorem wsum_cons_cons (hi lo : Byte) (l : List Byte) :
    wsum (hi :: lo :: l) = (hi.toNat * 256 + lo.toNat) + wsum l := by
  simp [wsum, pad_cons_cons]

/-- One pass of the fold as quotient and remainder. -/
theorem foldPass_eq (s : Nat) : foldPass s = s / 65536 + s % 65536 := by
  simp only [foldPass, Nat.shiftRight_eq_div_pow]
  rw [show (0xFFFF : Nat) = 2 ^ 16 - 1 by norm_num, Nat.and_two_pow_sub_one_eq_mod]

theorem foldLoop_succ (n s : Nat) :
    foldLoop (n + 1) s = if s ≤ 0xFFFF then s else foldLoop n (foldPass s) := rfl

end Sys2Proof.Laws
end

