-- ==== Sys2Proof/Laws/Memory.lean ====
section
/-! SUPPORT. OUT_BUF: every operation keeps the canonical form, and what a read gives after a write. -/

namespace Sys2Proof.Laws

open Sys2Proof.Machine

@[simp] theorem memory_read_nil (a : Nat) : Memory.read [] a = none := rfl

theorem memory_wf_nil : Memory.wf [] := List.Pairwise.nil

/-- Every offset listed after a write was listed before, or is the one written. -/
theorem memory_write_keys (m : Memory) (a : Nat) (v : Byte) (k : Nat)
    (h : k ∈ (Memory.write m a v).map Prod.fst) : k = a ∨ k ∈ m.map Prod.fst := by
  induction m with
  | nil => simpa [Memory.write] using h
  | cons c rest ih =>
    obtain ⟨k', b⟩ := c
    simp only [Memory.write] at h
    split at h
    · simpa using h
    · split at h
      · simp_all
      · rw [List.map_cons, List.mem_cons] at h
        rcases h with h | h
        · exact .inr (by simp [h])
        · exact (ih h).imp_right (fun h => by simp_all)

/-- Writing a byte keeps the canonical form. -/
theorem memory_write_wf (m : Memory) (a : Nat) (v : Byte) (h : Memory.wf m) :
    Memory.wf (Memory.write m a v) := by
  induction m with
  | nil => exact List.pairwise_singleton _ _
  | cons c rest ih =>
    obtain ⟨k, b⟩ := c
    obtain ⟨hk, hr⟩ := List.pairwise_cons.1 h
    simp only [Memory.write]
    split
    · rename_i hlt
      refine List.pairwise_cons.2 ⟨fun k' hk' => ?_, h⟩
      rcases List.mem_cons.1 hk' with rfl | hk'
      · exact hlt
      · exact hlt.trans (hk _ hk')
    · split
      · rename_i _ heq
        subst heq
        exact List.pairwise_cons.2 ⟨hk, hr⟩
      · refine List.pairwise_cons.2 ⟨fun k' hk' => ?_, ih hr⟩
        rcases memory_write_keys rest a v k' hk' with rfl | hk'
        · dsimp only; omega
        · exact hk _ hk'

/-- Writing a byte string keeps the canonical form. -/
theorem memory_writeBytes_wf (m : Memory) (off : Nat) (v : List Byte) (h : Memory.wf m) :
    Memory.wf (Memory.writeBytes m off v) := by
  induction v generalizing off with
  | nil => exact h
  | cons b rest ih => exact memory_write_wf _ _ _ (ih (off + 1))

/-- A read after a write of the same byte gives the byte written. -/
theorem memory_read_write_same (m : Memory) (a : Nat) (v : Byte) :
    Memory.read (Memory.write m a v) a = some v := by
  induction m with
  | nil => simp [Memory.write, Memory.read]
  | cons c rest ih =>
    obtain ⟨k, b⟩ := c
    simp only [Memory.write]
    split
    · simp [Memory.read]
    · split
      · simp [Memory.read]
      · rename_i h
        simp [Memory.read, Ne.symm h, ih]

/-- A write leaves every other byte as it was. -/
theorem memory_read_write_other (m : Memory) (a x : Nat) (v : Byte) (h : x ≠ a) :
    Memory.read (Memory.write m a v) x = Memory.read m x := by
  induction m with
  | nil => simp [Memory.write, Memory.read, h.symm]
  | cons c rest ih =>
    obtain ⟨k, b⟩ := c
    simp only [Memory.write]
    split
    · simp [Memory.read, h.symm]
    · split
      · rename_i _ heq
        subst heq
        simp [Memory.read, h.symm]
      · simp [Memory.read, ih]

/-- A read after `MemWrite(off, n, v)`: the string's byte inside, the old byte outside. -/
theorem memory_read_writeBytes (m : Memory) (off : Nat) (v : List Byte) (x : Nat) :
    Memory.read (Memory.writeBytes m off v) x
      = if off ≤ x ∧ x < off + v.length then v[x - off]? else Memory.read m x := by
  induction v generalizing off with
  | nil => simp [Memory.writeBytes]
  | cons b rest ih =>
    simp only [Memory.writeBytes, List.length_cons]
    by_cases hx : x = off
    · subst hx
      simp [memory_read_write_same]
    · rw [memory_read_write_other _ _ _ _ hx, ih]
      by_cases hin : off + 1 ≤ x ∧ x < off + 1 + rest.length
      · rw [if_pos hin, if_pos (by omega), show x - off = (x - (off + 1)) + 1 by omega]
        simp
      · rw [if_neg hin, if_neg (by omega)]

/-- What `OUT_BUF` gives after a command's bytes are written into the empty buffer. -/
theorem memory_read_fresh (v : List Byte) (x : Nat) :
    Memory.read (Memory.writeBytes [] 0 v) x = v[x]? := by
  rw [memory_read_writeBytes]
  by_cases h : x < v.length
  · simp [h]
  · simp [h]

/-- Writing below everything listed puts the byte first. -/
theorem memory_write_head (m : Memory) (a : Nat) (v : Byte)
    (h : ∀ k ∈ m.map Prod.fst, a < k) : Memory.write m a v = (a, v) :: m := by
  cases m with
  | nil => rfl
  | cons c rest =>
    obtain ⟨k, b⟩ := c
    simp only [Memory.write]
    rw [if_pos (h k (by simp))]

/-- The bytes of a command stand in the buffer one after another. -/
theorem memory_keys_fresh (v : List Byte) (off : Nat) :
    (Memory.writeBytes [] off v).map Prod.fst = List.range' off v.length := by
  induction v generalizing off with
  | nil => rfl
  | cons b rest ih =>
    have hlt : ∀ k ∈ (Memory.writeBytes [] (off + 1) rest).map Prod.fst, off < k := by
      intro k hk
      rw [ih] at hk
      have := List.mem_range'_1.1 hk
      omega
    rw [Memory.writeBytes, memory_write_head _ _ _ hlt, List.map_cons, ih]
    simp [List.range'_succ]

end Sys2Proof.Laws
end

