-- ==== Sys2Proof/Laws/State.lean ====
section
/-! SUPPORT. One lemma per field for each named update of the state. -/

namespace Sys2Proof.Laws

open Sys2Proof.Machine

@[simp] theorem resetBlock_res (s : State) : (resetBlock s).res = Latch.reset := rfl
@[simp] theorem resetBlock_pending (s : State) : (resetBlock s).pending = s.pending := rfl
@[simp] theorem resetBlock_readData (s : State) : (resetBlock s).readData = s.readData := rfl
@[simp] theorem resetBlock_freeCount (s : State) : (resetBlock s).freeCount = s.freeCount := rfl

@[simp] theorem issueAll_res (ds : List (List Byte)) (s : State) : (issueAll ds s).res = s.res := rfl
@[simp] theorem issueAll_pending (ds : List (List Byte)) (s : State) :
    (issueAll ds s).pending = s.pending ++ ds.map HostEvent.issue := rfl
@[simp] theorem issueAll_readData (ds : List (List Byte)) (s : State) :
    (issueAll ds s).readData = s.readData := rfl
@[simp] theorem issueAll_freeCount (ds : List (List Byte)) (s : State) :
    (issueAll ds s).freeCount = s.freeCount := rfl

@[simp] theorem withFetchWord_res (s : State) (nbits w : Nat) :
    (s.withFetchWord nbits w).res = s.res := rfl
@[simp] theorem withFetchWord_pending (s : State) (nbits w : Nat) :
    (s.withFetchWord nbits w).pending = .issue (tableDescriptor nbits w) :: s.pending := rfl
@[simp] theorem withFetchWord_readData (s : State) (nbits w : Nat) :
    (s.withFetchWord nbits w).readData = s.readData := rfl
@[simp] theorem withFetchWord_freeCount (s : State) (nbits w : Nat) :
    (s.withFetchWord nbits w).freeCount = s.freeCount := rfl

@[simp] theorem reset_res : State.reset.res = Latch.reset := rfl
@[simp] theorem reset_pending : State.reset.pending = [] := rfl
@[simp] theorem reset_readData : State.reset.readData = none := rfl
@[simp] theorem latch_reset_err : Latch.reset.err = 0x00#8 := rfl
@[simp] theorem latch_reset_csumV : Latch.reset.csumV = false := rfl
@[simp] theorem latch_reset_outLen : Latch.reset.outLen = 0#17 := rfl
@[simp] theorem latch_reset_outBuf : Latch.reset.outBuf = [] := rfl

/-- The four ways a step begins, by the host's oldest interaction. -/
theorem step_nil {s : State} (h : s.pending = []) : step s = .next s := by
  simp [step, h]

theorem step_issue {s : State} {d : List Byte} {rest : List HostEvent}
    (h : s.pending = .issue d :: rest) : step s = runDescriptor d { s with pending := rest } := by
  simp [step, h]

theorem step_read {s : State} {f : LatchField} {rest : List HostEvent}
    (h : s.pending = .read f :: rest) : step s = hostRead f { s with pending := rest } := by
  simp [step, h]

theorem step_reset {s : State} {rest : List HostEvent} (h : s.pending = .reset :: rest) :
    step s = .next (resetBlock { s with pending := rest }) := by
  simp [step, h]

end Sys2Proof.Laws
end

