-- ==== Sys2Proof/Laws/Ops.lean ====
section
/-! SUPPORT. For each shared operation, once, everything it can do; and what every command leaves alone. -/

namespace Sys2Proof.Laws

open Sys2Proof.Machine

/-- `raise e` answers a next state whose latch holds the code and no result. -/
theorem raise_eq (e : CmdError) (s : State) :
    raise e s = .next { s with
      res := { err := errCode e, csumV := false, csum := noCsum s, outLen := 0#17, outBuf := [] },
      freeCount := s.freeCount + 1 } := rfl

/-- The end of a command that returns a `u16`. -/
theorem writeLatch_okU16 (c : U16) (s : State) :
    writeLatch (.okU16 c) s
      = .next { s with res := { err := 0x00#8, csumV := true, csum := c, outLen := 0#17, outBuf := [] } } :=
  rfl

/-- The end of a command that returns bytes the buffer can hold. -/
theorem writeLatch_okBytes {b : List Byte} (h : b.length ≤ Config.outMax) (s : State) :
    writeLatch (.okBytes b) s = .next { s with
      res := { err := 0x00#8, csumV := false, csum := noCsum s, outLen := BitVec.ofNat 17 b.length,
               outBuf := Memory.writeBytes [] 0 b },
      freeCount := s.freeCount + 1 } := by
  simp [writeLatch, h]

/-- If the latch is written, everything else but the counter of free values is as it was. -/
theorem writeLatch_frame {r : CmdResult} {s t : State} (h : writeLatch r s = .next t) :
    t.pending = s.pending ∧ t.readData = s.readData := by
  cases r with
  | okU16 c =>
    rw [writeLatch_okU16] at h
    cases h
    exact ⟨rfl, rfl⟩
  | okBytes b =>
    simp only [writeLatch] at h
    split at h
    · cases h
      exact ⟨rfl, rfl⟩
    · cases h
  | error e =>
    cases h
    exact ⟨rfl, rfl⟩

/-- Writing the latch never refuses. -/
theorem writeLatch_not_refused (r : CmdResult) (s : State) (e : Refusal) :
    writeLatch r s ≠ .refused e := by
  cases r with
  | okU16 c => simp [writeLatch]
  | okBytes b => simp only [writeLatch]; split <;> simp
  | error e => simp [writeLatch]

/-- The address check with both verdicts good. -/
theorem withAddresses_valid {av : AddrValid} (h : addrsValid av = true) (s : State) (body : Result) :
    withAddresses av s body = body := by
  simp [withAddresses, h]

/-- The address check with a bad verdict. -/
theorem withAddresses_invalid {av : AddrValid} (h : addrsValid av = false) (s : State)
    (body : Result) : withAddresses av s body = raise .invalidAddress s := by
  simp [withAddresses, h]

/-- A host read that answers leaves everything but `readData` as it was. -/
theorem hostRead_next {f : LatchField} {s t : State} (h : hostRead f s = .next t) :
    ∃ d, readLatch f s.res = .next d ∧ t = { s with readData := some d } := by
  simp only [hostRead] at h
  split at h
  · rename_i d hd
    cases h
    exact ⟨d, hd, rfl⟩
  · cases h
  · cases h

/-- The memory of the reset state has the canonical form. -/
theorem reset_outBuf_wf : Memory.wf State.reset.res.outBuf := memory_wf_nil

/-- A command ends in one write of the latch, with an outcome its operands alone decide and that is never
`TransmitError`. -/
theorem exec_outcome (i : Instr) :
    ∃ r, r ≠ .error .transmitError ∧ ∀ s, exec i s = writeLatch r s := by
  have checked : ∀ av r, r ≠ CmdResult.error .transmitError →
      ∃ r', r' ≠ .error .transmitError ∧ ∀ s, withAddresses av s (writeLatch r s) = writeLatch r' s := by
    intro av r h
    cases ha : addrsValid av
    · exact ⟨.error .invalidAddress, by simp, fun s => withAddresses_invalid ha _ _⟩
    · exact ⟨r, h, fun s => withAddresses_valid ha _ _⟩
  cases i with
  | csum buf => exact ⟨.okU16 (csum buf), by simp, fun _ => rfl⟩
  | ip4hdr proto ip tlen => exact checked ip.av _ (by simp)
  | icmphdr icmp payload => exact ⟨.okBytes (icmphdr icmp payload), by simp, fun _ => rfl⟩
  | tcphdr addr tcp payload => exact checked addr.av _ (by simp)
  | assembleIcmp ip icmp payload => exact checked ip.av _ (by simp)
  | assembleTcp ip tcp payload => exact checked ip.av _ (by simp)
  | assembleUnsupported kind ip =>
    exact checked ip.av (.error .unsupportedPacketKind) (by simp)

/-- An issued descriptor either runs the command it decodes to or ends with `IllegalCommand`. -/
theorem runDescriptor_cases (d : List Byte) (s : State) :
    (∃ i, decode d = .ok i ∧ runDescriptor d s = exec i s)
      ∨ ∃ e, decode d = .error e ∧ runDescriptor d s = raise .illegalCommand s := by
  cases h : decode d with
  | ok i => exact .inl ⟨i, rfl, by simp [runDescriptor, h]⟩
  | error e => exact .inr ⟨e, rfl, by simp [runDescriptor, h]⟩

/-- The four things a step can do, by the host's oldest interaction. -/
theorem step_cases {s t : State} (h : step s = .next t) :
    (s.pending = [] ∧ t = s)
    ∨ (∃ d rest, s.pending = .issue d :: rest ∧ runDescriptor d { s with pending := rest } = .next t)
    ∨ (∃ f rest v, s.pending = .read f :: rest ∧ readLatch f s.res = .next v
        ∧ t = { s with pending := rest, readData := some v })
    ∨ ∃ rest, s.pending = .reset :: rest ∧ t = resetBlock { s with pending := rest } := by
  cases hp : s.pending with
  | nil =>
    rw [step_nil hp] at h
    cases h
    exact .inl ⟨rfl, rfl⟩
  | cons e rest =>
    cases e with
    | issue d =>
      rw [step_issue hp] at h
      exact .inr (.inl ⟨d, rest, rfl, h⟩)
    | read f =>
      rw [step_read hp] at h
      obtain ⟨v, hv, rfl⟩ := hostRead_next h
      exact .inr (.inr (.inl ⟨f, rest, v, rfl, hv, rfl⟩))
    | reset =>
      rw [step_reset hp] at h
      cases h
      exact .inr (.inr (.inr ⟨rest, rfl, rfl⟩))

/-- The length of the latch's `OUT_LEN` for a result the buffer can hold. -/
theorem outLen_toNat {n : Nat} (h : n ≤ Config.outMax) : (BitVec.ofNat 17 n).toNat = n := by
  simp only [Config.outMax] at h
  simp only [BitVec.toNat_ofNat]
  omega

end Sys2Proof.Laws
end

