-- ==== Sys2Proof/Laws/WellFormed.lean ====
section
/-! SUPPORT. What well-formedness says of each command. -/

namespace Sys2Proof.Laws

theorem payloadFits_iff (payload : List Byte) :
    payloadFits payload = true ↔ payload.length ≤ 65535 := decide_eq_true_iff

theorem kindUnsupported_iff (kind : Byte) :
    kindUnsupported kind = true ↔ kind ≠ 0x01#8 ∧ kind ≠ 0x06#8 := by
  simp [kindUnsupported]

theorem wf_csum (buf : List Byte) : (Instr.csum buf).WellFormed ↔ buf.length ≤ 65535 :=
  payloadFits_iff buf

theorem wf_ip4hdr (proto : Byte) (ip : IpPart) (tlen : U16) :
    (Instr.ip4hdr proto ip tlen).WellFormed := rfl

theorem wf_icmphdr (icmp : IcmpPart) (payload : List Byte) :
    (Instr.icmphdr icmp payload).WellFormed ↔ payload.length ≤ 65535 := payloadFits_iff payload

theorem wf_tcphdr (addr : AddrPart) (tcp : TcpPart) (payload : List Byte) :
    (Instr.tcphdr addr tcp payload).WellFormed ↔ payload.length ≤ 65535 := payloadFits_iff payload

theorem wf_assembleIcmp (ip : IpPart) (icmp : IcmpPart) (payload : List Byte) :
    (Instr.assembleIcmp ip icmp payload).WellFormed ↔ payload.length ≤ 65535 :=
  payloadFits_iff payload

theorem wf_assembleTcp (ip : IpPart) (tcp : TcpPart) (payload : List Byte) :
    (Instr.assembleTcp ip tcp payload).WellFormed ↔ payload.length ≤ 65535 :=
  payloadFits_iff payload

theorem wf_assembleUnsupported (kind : Byte) (ip : IpPart) :
    (Instr.assembleUnsupported kind ip).WellFormed ↔ kind ≠ 0x01#8 ∧ kind ≠ 0x06#8 :=
  kindUnsupported_iff kind

end Sys2Proof.Laws
end

