-- ==== Sys2Proof/Laws/PerInstr.lean ====
section
/-! SUPPORT. For every command: its descriptor is deliverable and has the length its own prefix asks for (30_encoding.md R64, 20_memory.md R31). -/

namespace Sys2Proof.Laws.EncodeLength

open Sys2Proof.Machine

/-- The descriptor of a well-formed command has the length that `OPC`, `MOD` and `PLEN` tell, at most `DLEN_MAX`. -/
def Statement (i : Instr) : Prop :=
  i.WellFormed →
    (encode i).length
        = requiredLength (opcOf (encode i)) (modOf (encode i)) (plenOf (encode i))
      ∧ (encode i).length ≤ Config.dlenMax

/-- `PLEN` as the prefix carries it. -/
theorem plen_of_prefix (opc md : Byte) (n : Nat) (l : List Byte) (h : n ≤ 65535) :
    plenOf (encodePrefix opc md n ++ l) = n := by
  have hv : (trunc16 n).extractLsb' 8 8 ++ (trunc16 n).extractLsb' 0 8 = trunc16 n := by
    rw [BitVec.extractLsb'_append_extractLsb'_eq_extractLsb' (by omega)]
    simp
  have hp : plenOf (encodePrefix opc md n ++ l)
      = ((trunc16 n).extractLsb' 8 8 ++ (trunc16 n).extractLsb' 0 8).toNat := rfl
  rw [hp, hv]
  simp only [trunc16, BitVec.toNat_ofNat]
  omega

theorem opc_of_prefix (opc md : Byte) (n : Nat) (l : List Byte) :
    opcOf (encodePrefix opc md n ++ l) = opc := rfl

theorem mod_of_prefix (opc md : Byte) (n : Nat) (l : List Byte) :
    modOf (encodePrefix opc md n ++ l) = md := rfl

theorem csum (buf : List Byte) : Statement (.csum buf) := by
  intro h
  have hb : buf.length ≤ 65535 := (wf_csum _).1 h
  simp only [encode, opc_of_prefix, mod_of_prefix, plen_of_prefix _ _ _ _ hb]
  simp [requiredLength, encodePrefix, be16, Config.dlenMax]
  omega

theorem ip4hdr (proto : Byte) (ip : IpPart) (tlen : U16) : Statement (.ip4hdr proto ip tlen) := by
  intro _
  exact ⟨rfl, by simp [encode, encodePrefix, encodeIpPart, addrBytes, be16, Config.dlenMax]⟩

theorem icmphdr (icmp : IcmpPart) (payload : List Byte) : Statement (.icmphdr icmp payload) := by
  intro h
  have hb : payload.length ≤ 65535 := (wf_icmphdr _ _).1 h
  simp only [encode, List.append_assoc, opc_of_prefix, mod_of_prefix, plen_of_prefix _ _ _ _ hb]
  simp [requiredLength, encodePrefix, encodeIcmpPart, be16, Config.dlenMax]
  omega

theorem tcphdr (addr : AddrPart) (tcp : TcpPart) (payload : List Byte) :
    Statement (.tcphdr addr tcp payload) := by
  intro h
  have hb : payload.length ≤ 65535 := (wf_tcphdr _ _ _).1 h
  simp only [encode, List.append_assoc, opc_of_prefix, mod_of_prefix, plen_of_prefix _ _ _ _ hb]
  simp [requiredLength, encodePrefix, encodeAddrPart, encodeTcpPart, addrBytes, be16, be32,
    Config.dlenMax]
  omega

theorem assembleIcmp (ip : IpPart) (icmp : IcmpPart) (payload : List Byte) :
    Statement (.assembleIcmp ip icmp payload) := by
  intro h
  have hb : payload.length ≤ 65535 := (wf_assembleIcmp _ _ _).1 h
  simp only [encode, List.append_assoc, opc_of_prefix, mod_of_prefix, plen_of_prefix _ _ _ _ hb]
  simp [requiredLength, encodePrefix, encodeIpPart, encodeIcmpPart, addrBytes, be16, Config.dlenMax]
  omega

theorem assembleTcp (ip : IpPart) (tcp : TcpPart) (payload : List Byte) :
    Statement (.assembleTcp ip tcp payload) := by
  intro h
  have hb : payload.length ≤ 65535 := (wf_assembleTcp _ _ _).1 h
  simp only [encode, List.append_assoc, opc_of_prefix, mod_of_prefix, plen_of_prefix _ _ _ _ hb]
  simp [requiredLength, encodePrefix, encodeIpPart, encodeTcpPart, addrBytes, be16, be32,
    Config.dlenMax]
  omega

theorem assembleUnsupported (kind : Byte) (ip : IpPart) :
    Statement (.assembleUnsupported kind ip) := by
  intro h
  have hk := (wf_assembleUnsupported _ _).1 h
  simp only [encode, opc_of_prefix, mod_of_prefix]
  simp [requiredLength, hk.1, hk.2, encodePrefix, encodeIpPart, addrBytes, be16, Config.dlenMax]

end Sys2Proof.Laws.EncodeLength
end

