-- ==== Sys2Proof/Tests/Slice0.lean ====
section
/-! SUPPORT. Tests against the vectors of 95_test_vectors.md and the worked examples of the rules (computed there from the rules, not by this model); the ill-formed terms WellFormed refuses; and for every obligation with hypotheses a witness that meets them. -/

namespace Sys2Proof.Tests

open Sys2Proof.Machine

/-- The machine after reset with descriptors issued. -/
def issued (ds : List (List Byte)) : State := issueAll ds State.reset

/-- What one issued descriptor leaves: `ERR`, `CSUM_V`, `OUT_LEN` and the bytes of `OUT_BUF`. -/
def latchAfter (d : List Byte) : Option (Byte × Bool × Nat × List Byte) :=
  match step (issued [d]) with
  | .next t => some (t.res.err, t.res.csumV, t.res.outLen.toNat, t.res.outBuf.map Prod.snd)
  | .fault _ => none
  | .refused _ => none

/-- `CSUM` after one issued `CSUM` descriptor, if it is valid. -/
def csumAfter (d : List Byte) : Option U16 :=
  match step (issued [d]) with
  | .next t => (visible t.res).csum
  | .fault _ => none
  | .refused _ => none

/-- Whether the decoder rejects every descriptor of a list. -/
def allRejected (ds : List (List Byte)) : Bool :=
  ds.all (fun d => match decode d with
    | .ok _ => false
    | .error _ => true)

/-! ### Well-formedness: each check refuses an ill-formed term -/

theorem tooLong : ¬ (List.replicate 65536 0#8).length ≤ 65535 := by
  rw [List.length_replicate]; decide

theorem test_wf_refuses_long_buffer : ¬ (Instr.csum (List.replicate 65536 0#8)).WellFormed :=
  fun h => tooLong ((Laws.wf_csum _).1 h)

theorem test_wf_refuses_long_icmp_payload (p : IcmpPart) :
    ¬ (Instr.icmphdr p (List.replicate 65536 0#8)).WellFormed :=
  fun h => tooLong ((Laws.wf_icmphdr _ _).1 h)

theorem test_wf_refuses_long_tcp_payload (a : AddrPart) (p : TcpPart) :
    ¬ (Instr.tcphdr a p (List.replicate 65536 0#8)).WellFormed :=
  fun h => tooLong ((Laws.wf_tcphdr _ _ _).1 h)

theorem test_wf_refuses_long_packet_payload (ip : IpPart) (p : IcmpPart) (q : TcpPart) :
    ¬ (Instr.assembleIcmp ip p (List.replicate 65536 0#8)).WellFormed
      ∧ ¬ (Instr.assembleTcp ip q (List.replicate 65536 0#8)).WellFormed :=
  ⟨fun h => tooLong ((Laws.wf_assembleIcmp _ _ _).1 h),
    fun h => tooLong ((Laws.wf_assembleTcp _ _ _).1 h)⟩

/-- `PLEN = 65535` is the largest payload (00_scope.md R6). -/
theorem test_wf_accepts_longest_payload : (Instr.csum (List.replicate 65535 0#8)).WellFormed :=
  (Laws.wf_csum _).2 (by rw [List.length_replicate])

def loopback : IPv4Addr := ⟨127, 0, 0, 1⟩
def host1 : IPv4Addr := ⟨10, 0, 0, 1⟩
def host2 : IPv4Addr := ⟨10, 0, 0, 2⟩
def ip12 : IpPart := { av := ⟨true, true⟩, ttl := 255, ipid := 0, src := host1, dst := host2 }
def ipBad : IpPart := { av := ⟨true, false⟩, ttl := 255, ipid := 0, src := host1, dst := host2 }
def echo : IcmpPart := { icmpType := 8, icmpCode := 0, id := 1, seq := 1 }
def syn : TcpPart := { flags := 2, sport := 12345, dport := 80, seqn := 0, ackn := 0, win := 0xffff }
def ping : List Byte := [0x70, 0x69, 0x6e, 0x67]

theorem test_wf_refuses_supported_kinds :
    ¬ (Instr.assembleUnsupported 1 ip12).WellFormed ∧ ¬ (Instr.assembleUnsupported 6 ip12).WellFormed := by
  decide

/-! ### Decoding: words written out from the formats -/

/-- Format C (30_encoding.md R55), vector CS-13: `01 00 00 03` and three bytes. -/
theorem test_decode_csum :
    decode [0x01, 0x00, 0x00, 0x03, 0x12, 0x34, 0x56] = .ok (.csum [0x12, 0x34, 0x56]) := by decide

/-- Format I (R56), every field a value of its own. -/
theorem test_decode_ip4hdr :
    decode [0x02, 0x11, 0x00, 0x00, 0x01, 0x40, 0x12, 0x34, 1, 2, 3, 4, 5, 6, 7, 8, 0x56, 0x78]
      = .ok (.ip4hdr 0x11
          { av := ⟨true, false⟩, ttl := 0x40, ipid := 0x1234, src := ⟨1, 2, 3, 4⟩, dst := ⟨5, 6, 7, 8⟩ }
          0x5678) := by decide

/-- Format M (R57), vector IC-4. -/
theorem test_decode_icmphdr :
    decode [0x03, 0x00, 0x00, 0x03, 0x08, 0x00, 0x12, 0x34, 0x00, 0x01, 0x61, 0x62, 0x63]
      = .ok (.icmphdr { icmpType := 8, icmpCode := 0, id := 0x1234, seq := 1 } [0x61, 0x62, 0x63]) := by
  decide

/-- Format T (R58), vector TC-5: `AV` at 4, addresses at 5 and 9, `FLAGS` at 13 and so on. -/
theorem test_decode_tcphdr :
    decode [0x04, 0x00, 0x00, 0x01, 0x03, 1, 2, 3, 4, 5, 6, 7, 8, 0xff, 0, 1, 0, 2, 0, 0, 0, 3, 0, 0, 0, 4,
        0, 5, 1]
      = .ok (.tcphdr { av := ⟨true, true⟩, src := ⟨1, 2, 3, 4⟩, dst := ⟨5, 6, 7, 8⟩ }
          { flags := 0xff, sport := 1, dport := 2, seqn := 3, ackn := 4, win := 5 } [1]) := by decide

/-- Format A1 (R59), vector AS-5. -/
theorem test_decode_assemble_icmp :
    decode [0x05, 0x01, 0x00, 0x03, 0x03, 0x40, 0x00, 0x07, 0xc0, 0xa8, 0x01, 0x0a, 0xc0, 0xa8, 0x01,
        0x01, 0x08, 0x00, 0x12, 0x34, 0x00, 0x01, 0x61, 0x62, 0x63]
      = .ok (.assembleIcmp
          { av := ⟨true, true⟩, ttl := 64, ipid := 7, src := ⟨192, 168, 1, 10⟩, dst := ⟨192, 168, 1, 1⟩ }
          { icmpType := 8, icmpCode := 0, id := 0x1234, seq := 1 } [0x61, 0x62, 0x63]) := by decide

/-- Format A6 (R60), vector AS-3. -/
theorem test_decode_assemble_tcp :
    decode [0x05, 0x06, 0x00, 0x05, 0x03, 0x40, 0xbe, 0xef, 0x0a, 0x00, 0x00, 0x01, 0x0a, 0x00, 0x00,
        0x02, 0x18, 0x30, 0x39, 0x00, 0x50, 0x01, 0x02, 0x03, 0x04, 0x0a, 0x0b, 0x0c, 0x0d, 0x72, 0x10,
        0x68, 0x65, 0x6c, 0x6c, 0x6f]
      = .ok (.assembleTcp
          { av := ⟨true, true⟩, ttl := 64, ipid := 0xbeef, src := host1, dst := host2 }
          { flags := 0x18, sport := 12345, dport := 80, seqn := 0x01020304, ackn := 0x0a0b0c0d,
            win := 0x7210 }
          [0x68, 0x65, 0x6c, 0x6c, 0x6f]) := by decide

/-- Format AX (R61), vector AS-E5: `PLEN` and the bytes from 16 on are not read. -/
theorem test_decode_assemble_unsupported :
    decode [0x05, 0x11, 0xab, 0xcd, 0x03, 0xff, 0x00, 0x00, 0x0a, 0x00, 0x00, 0x01, 0x0a, 0x00, 0x00,
        0x02, 0xde, 0xad, 0xbe, 0xef] = .ok (.assembleUnsupported 17 ip12) := by decide

/-- Each illegal shape of 30_encoding.md R63: DE-1 to DE-8, IP-E4 to IP-E7, IC-E1, IC-E2. -/
theorem test_decode_rejects :
    allRejected [[0x06, 0, 0, 0], [0, 0, 0, 0], [0x01, 0, 0, 2, 0xaa], [], [0x01, 0, 0],
      [0xff, 0, 0, 0, 0], [0x01, 0x01, 0, 0], [0x01, 0, 0, 1, 0, 0],
      [0x02, 0x06, 0, 0, 0x07, 0xff, 0, 0, 0x0a, 0, 0, 1, 0x0a, 0, 0, 2, 0, 0x28],
      [0x02, 0x06, 0, 1, 0x03, 0xff, 0, 0, 0x0a, 0, 0, 1, 0x0a, 0, 0, 2, 0, 0x28],
      [0x02, 0x06, 0, 0, 0x03, 0xff, 0, 0, 0x0a, 0, 0, 1, 0x0a, 0, 0, 2, 0],
      [0x02, 0x06, 0, 0, 0x03, 0xff, 0, 0, 0x0a, 0, 0, 1, 0x0a, 0, 0, 2, 0, 0x28, 0],
      [0x03, 0x01, 0, 4, 0x08, 0, 0, 1, 0, 1, 0x70, 0x69, 0x6e, 0x67],
      [0x03, 0, 0, 4, 0x08, 0, 0, 1, 0, 1, 0x70, 0x69, 0x6e]] = true := by decide

/-- The same for TCPHDR and ASSEMBLE: TC-E2, TC-E4, AS-E6, AS-E8, AS-E9, and a TCP form one byte short. -/
theorem test_decode_rejects_more :
    allRejected [
      [0x04, 0, 0, 0, 0x0b, 0x0a, 0, 0, 1, 0x0a, 0, 0, 2, 2, 0x30, 0x39, 0, 0x50, 0, 0, 0, 0, 0, 0, 0, 0,
        0xff, 0xff],
      [0x04, 0x06, 0, 0, 0x03, 0x0a, 0, 0, 1, 0x0a, 0, 0, 2, 2, 0x30, 0x39, 0, 0x50, 0, 0, 0, 0, 0, 0, 0,
        0, 0xff, 0xff],
      [0x05, 0x11, 0, 0, 0x03, 0xff, 0, 0, 0x0a, 0, 0, 1, 0x0a, 0, 0],
      [0x05, 0x01, 0, 0, 0x03, 0xff, 0, 0, 0x0a, 0, 0, 1, 0x0a, 0, 0, 2, 2, 0x30, 0x39, 0, 0x50, 0, 0, 0,
        0, 0, 0, 0, 0, 0xff, 0xff],
      [0x05, 0x11, 0, 0, 0x04, 0xff, 0, 0, 0x0a, 0, 0, 1, 0x0a, 0, 0, 2],
      [0x05, 0x06, 0, 0, 0x03, 0xff, 0, 0, 0x0a, 0, 0, 1, 0x0a, 0, 0, 2, 2, 0x30, 0x39, 0, 0x50, 0, 0, 0,
        0, 0, 0, 0, 0, 0xff]] = true := by decide

/-- Every row of the opcode table, with its free bits zero, decodes to its own command. -/
theorem test_table_words :
    decodeTableWord 32 0x01000000 = some (.csum [])
    ∧ decodeTableWord 32 0x02000000
        = some (.ip4hdr 0 ⟨⟨false, false⟩, 0, 0, ⟨0, 0, 0, 0⟩, ⟨0, 0, 0, 0⟩⟩ 0)
    ∧ decodeTableWord 32 0x03000002 = some (.icmphdr ⟨0, 0, 0, 0⟩ [0, 0])
    ∧ decodeTableWord 32 0x05110000
        = some (.assembleUnsupported 17 ⟨⟨false, false⟩, 0, 0, ⟨0, 0, 0, 0⟩, ⟨0, 0, 0, 0⟩⟩)
    ∧ decodeTableWord 32 0x06000000 = none := by decide

/-! ### The checksum -/

/-- The fold table of 95_test_vectors.md 2.1, its two-pass rows. -/
theorem test_fold_two_passes :
    fold 0x1FFFF = 0x0001 ∧ fold 0xFFFFFFFF = 0xFFFF ∧ fold 0x7FFF7F01 = 0xFF00 := by decide

/-- CS-7, the source's known vector: `0xB1E6`. -/
theorem test_csum_known_vector :
    csumAfter [0x01, 0x00, 0x00, 0x14, 0x45, 0x00, 0x00, 0x3c, 0x1c, 0x46, 0x40, 0x00, 0x40, 0x06, 0x00,
      0x00, 0xac, 0x10, 0x0a, 0x63, 0xac, 0x10, 0x0a, 0x0c] = some 0xb1e6#16 := by decide

/-- CS-12 (two passes) and CS-13 (odd length). -/
theorem test_csum_fold_and_pad :
    csumAfter [0x01, 0x00, 0x00, 0x06, 0xff, 0xff, 0xff, 0xff, 0x00, 0x01] = some 0xfffe#16
    ∧ csumAfter [0x01, 0x00, 0x00, 0x03, 0x12, 0x34, 0x56] = some 0x97cb#16 := by decide

/-- The adder trace for CS-7 (95_test_vectors.md 2.2), after eight words and after all ten. -/
theorem test_adder_trace :
    adderAcc [0x4500, 0x003c, 0x1c46, 0x4000, 0x4006, 0x0000, 0xac10, 0x0a63] = 0x97fc
    ∧ adderAcc [0x4500, 0x003c, 0x1c46, 0x4000, 0x4006, 0x0000, 0xac10, 0x0a63, 0xac10, 0x0a0c]
        = 0x4e19 := by decide

/-! ### The header and packet commands -/

/-- IP-1. -/
theorem test_ip4hdr :
    latchAfter [0x02, 0x06, 0x00, 0x00, 0x03, 0x40, 0x1c, 0x46, 0xac, 0x10, 0x0a, 0x63, 0xac, 0x10, 0x0a,
        0x0c, 0x00, 0x3c]
      = some (0x00, false, 20, [0x45, 0x00, 0x00, 0x3c, 0x1c, 0x46, 0x00, 0x00, 0x40, 0x06, 0xf1, 0xe6,
          0xac, 0x10, 0x0a, 0x63, 0xac, 0x10, 0x0a, 0x0c]) := by decide

/-- IP-E2: `SV = 0`. -/
theorem test_ip4hdr_invalid_address :
    latchAfter [0x02, 0x06, 0x00, 0x00, 0x02, 0xff, 0x00, 0x00, 9, 9, 9, 9, 0x0a, 0x00, 0x00, 0x02, 0x00,
      0x28] = some (0x01, false, 0, []) := by decide

/-- IC-4: odd payload, not copied. -/
theorem test_icmphdr :
    latchAfter [0x03, 0x00, 0x00, 0x03, 0x08, 0x00, 0x12, 0x34, 0x00, 0x01, 0x61, 0x62, 0x63]
      = some (0x00, false, 8, [0x08, 0x00, 0x21, 0x68, 0x12, 0x34, 0x00, 0x01]) := by decide

/-- IC-5: a true checksum of 0 is written as it is. -/
theorem test_icmphdr_zero_checksum :
    latchAfter [0x03, 0x00, 0x00, 0x00, 0x08, 0x00, 0xf7, 0xff, 0x00, 0x00]
      = some (0x00, false, 8, [0x08, 0x00, 0x00, 0x00, 0xf7, 0xff, 0x00, 0x00]) := by decide

/-- TC-3: odd payload, two flags. -/
theorem test_tcphdr :
    latchAfter [0x04, 0x00, 0x00, 0x05, 0x03, 0x0a, 0x00, 0x00, 0x01, 0x0a, 0x00, 0x00, 0x02, 0x18, 0x30,
        0x39, 0x00, 0x50, 0x01, 0x02, 0x03, 0x04, 0x0a, 0x0b, 0x0c, 0x0d, 0x72, 0x10, 0x68, 0x65, 0x6c,
        0x6c, 0x6f]
      = some (0x00, false, 20, [0x30, 0x39, 0x00, 0x50, 0x01, 0x02, 0x03, 0x04, 0x0a, 0x0b, 0x0c, 0x0d,
          0x50, 0x18, 0x72, 0x10, 0x9b, 0x3b, 0x00, 0x00]) := by decide

/-- TC-8: every operand at its maximum; the data offset nibble and the urgent pointer stay. -/
theorem test_tcphdr_maximum :
    latchAfter ([0x04, 0x00, 0x00, 0x02, 0x03] ++ List.replicate 25 0xff)
      = some (0x00, false, 20, List.replicate 12 0xff
          ++ [0x50, 0xff, 0xff, 0xff, 0xae, 0xe4, 0x00, 0x00]) := by decide

/-- AS-1, the source's end-to-end ICMP case: 32 bytes (90_conflicts.md C8). -/
theorem test_assemble_icmp :
    latchAfter [0x05, 0x01, 0x00, 0x04, 0x03, 0xff, 0x00, 0x00, 0x7f, 0x00, 0x00, 0x01, 0x7f, 0x00, 0x00,
        0x01, 0x08, 0x00, 0x00, 0x01, 0x00, 0x01, 0x70, 0x69, 0x6e, 0x67]
      = some (0x00, false, 32, [0x45, 0x00, 0x00, 0x20, 0x00, 0x00, 0x00, 0x00, 0xff, 0x01, 0xbd, 0xda,
          0x7f, 0x00, 0x00, 0x01, 0x7f, 0x00, 0x00, 0x01, 0x08, 0x00, 0x19, 0x2d, 0x00, 0x01, 0x00,
          0x01, 0x70, 0x69, 0x6e, 0x67]) := by decide

/-- AS-3. -/
theorem test_assemble_tcp :
    latchAfter [0x05, 0x06, 0x00, 0x05, 0x03, 0x40, 0xbe, 0xef, 0x0a, 0x00, 0x00, 0x01, 0x0a, 0x00, 0x00,
        0x02, 0x18, 0x30, 0x39, 0x00, 0x50, 0x01, 0x02, 0x03, 0x04, 0x0a, 0x0b, 0x0c, 0x0d, 0x72, 0x10,
        0x68, 0x65, 0x6c, 0x6c, 0x6f]
      = some (0x00, false, 45, [0x45, 0x00, 0x00, 0x2d, 0xbe, 0xef, 0x00, 0x00, 0x40, 0x06, 0xa7, 0xd9,
          0x0a, 0x00, 0x00, 0x01, 0x0a, 0x00, 0x00, 0x02, 0x30, 0x39, 0x00, 0x50, 0x01, 0x02, 0x03,
          0x04, 0x0a, 0x0b, 0x0c, 0x0d, 0x50, 0x18, 0x72, 0x10, 0x9b, 0x3b, 0x00, 0x00, 0x68, 0x65,
          0x6c, 0x6c, 0x6f]) := by decide

/-- AS-E1 and AS-E3: kind 17 with good and with bad addresses. -/
theorem test_assemble_unsupported :
    latchAfter [0x05, 0x11, 0x00, 0x00, 0x03, 0xff, 0x00, 0x00, 0x0a, 0x00, 0x00, 0x01, 0x0a, 0x00, 0x00,
      0x02] = some (0x02, false, 0, [])
    ∧ latchAfter [0x05, 0x11, 0x00, 0x00, 0x00, 0xff, 0x00, 0x00, 0x00, 0x00, 0x00, 0x00, 0x00, 0x00,
      0x00, 0x00] = some (0x01, false, 0, []) := by decide

/-- DE-1: an unassigned opcode ends with `ERR = 0x80`. -/
theorem test_illegal_command : latchAfter [0x06, 0x00, 0x00, 0x00] = some (0x80, false, 0, []) := by
  decide

/-! ### Host reads -/

/-- A read of `CSUM` before any command has no value and is refused; `ERR` reads 0 (10_state.md R24). -/
theorem test_reads_after_reset :
    readLatch .csum State.reset.res = .refused .csumHasNoValue
    ∧ readLatch .err State.reset.res = .next (.err 0x00)
    ∧ readLatch (.outBuf 65574) State.reset.res = .refused (.outBufHasNoValue 65574)
    ∧ readLatch (.outBuf 65575) State.reset.res = .fault (.noSuchOutOffset 65575) := ⟨rfl, rfl, rfl, rfl⟩

/-- A latch that holds two bytes. -/
def twoBytes : Latch :=
  { err := 0, csumV := false, csum := 0, outLen := 2, outBuf := [(0, 0xaa), (1, 0xbb)] }

/-- The last offset below `OUT_LEN` answers, the next is refused (10_state.md R17). -/
theorem test_reads_at_out_len :
    readLatch (.outBuf 1) twoBytes = .next (.outBuf 1 0xbb)
    ∧ readLatch (.outBuf 2) twoBytes = .refused (.outBufHasNoValue 2) := ⟨rfl, rfl⟩

/-! ### The assembler syntax -/

/-- The example of 41_ipv4_header.md R102: `ttl` defaults to 255. -/
theorem test_asm_ip4hdr :
    asmProgram "IP4HDR src=127.0.0.1 dst=127.0.0.1 proto=1 total_length=28 ipid=0".toList
      = .ok [[0x02, 0x01, 0x00, 0x00, 0x03, 0xff, 0x00, 0x00, 0x7f, 0x00, 0x00, 0x01, 0x7f, 0x00, 0x00,
          0x01, 0x00, 0x1c]] := by decide +kernel

/-- The example of 43_tcp_header.md R124, with a flag name and an empty payload. -/
theorem test_asm_tcphdr :
    asmProgram ("TCPHDR sport=12345 dport=80 seq=0 ack=0 flags=SYN win=0xFFFF src=10.0.0.1 ".toList
        ++ "dst=10.0.0.2 payload=[] ; a comment".toList)
      = .ok [[0x04, 0x00, 0x00, 0x00, 0x03, 0x0a, 0x00, 0x00, 0x01, 0x0a, 0x00, 0x00, 0x02, 0x02, 0x30,
          0x39, 0x00, 0x50, 0x00, 0x00, 0x00, 0x00, 0x00, 0x00, 0x00, 0x00, 0xff, 0xff]] := by
  decide +kernel

/-- The example of 42_icmp_header.md R112, with a quoted payload. -/
theorem test_asm_icmphdr :
    asmProgram ("ICMPHDR type=8 code=0 id=1 seq=1 payload=".toList
        ++ quoteChar :: "ping".toList ++ [quoteChar])
      = .ok [[0x03, 0x00, 0x00, 0x04, 0x08, 0x00, 0x00, 0x01, 0x00, 0x01, 0x70, 0x69, 0x6e, 0x67]] := by
  decide +kernel

/-- The example of 44_packet_assembler.md R138 and a `CSUM` line after it. -/
theorem test_asm_program :
    asmProgram "ASSEMBLE kind=17 src=10.0.0.1 dst=10.0.0.2 ipid=0\n\nCSUM buf=[01 Ff]".toList
      = .ok [[0x05, 0x11, 0x00, 0x00, 0x03, 0xff, 0x00, 0x00, 0x0a, 0x00, 0x00, 0x01, 0x0a, 0x00, 0x00,
          0x02], [0x01, 0x00, 0x00, 0x02, 0x01, 0xff]] := by decide +kernel

/-- `ipid` has no default (30_encoding.md R74), and a value must fit its width (R73). -/
theorem test_asm_refuses :
    asmProgram "IP4HDR src=1.2.3.4 dst=1.2.3.4 proto=1 total_length=28".toList = .error .missingOperand
    ∧ asmProgram "IP4HDR src=1.2.3.4 dst=1.2.3.4 proto=256 total_length=28 ipid=0".toList
        = .error .badValue := by decide +kernel

/-- Literals that are not four numbers 0 to 255 (30_encoding.md R75). -/
theorem test_asm_bad_addresses :
    addrLiteral "256.0.0.1".toList = (false, ⟨0, 0, 0, 0⟩)
    ∧ addrLiteral "1.2.3".toList = (false, ⟨0, 0, 0, 0⟩)
    ∧ addrLiteral "255.0.0.1".toList = (true, ⟨255, 0, 0, 1⟩) := by decide

/-! ### Witnesses: for every obligation with hypotheses, inputs that meet them -/

/-- DecodeEncode, FailurePriority: well-formed commands of the three outcomes. -/
theorem test_witness_wellFormed :
    (Instr.assembleTcp ip12 syn [1]).WellFormed ∧ (Instr.assembleIcmp ipBad echo []).WellFormed
      ∧ (Instr.assembleUnsupported 17 ip12).WellFormed := by decide

/-- EncodeDecode, DecodeWellFormed: a descriptor of each kind of form. -/
theorem test_witness_decodes :
    decode [0x01, 0x00, 0x00, 0x00] = .ok (.csum [])
    ∧ decode [0x05, 0x11, 0xab, 0xcd, 0x03, 0xff, 0x00, 0x00, 0x0a, 0x00, 0x00, 0x01, 0x0a, 0x00, 0x00,
        0x02] = .ok (.assembleUnsupported 17 ip12) := by decide

/-- StepRunsDecoded, EveryDescriptorCompletes, LatchFunctionOfDescriptor, NothingPersists, IllegalCommand. -/
theorem test_witness_issued :
    (issued [[0x01, 0x00, 0x00, 0x00], [0x06]]).pending
        = .issue [0x01, 0x00, 0x00, 0x00] :: [.issue [0x06]]
    ∧ (issued [[0x06], [0x01]]).pending = [[0x06]].map HostEvent.issue ++ [.issue [0x01]]
    ∧ (issued [[0x06]]).pending = [.issue [0x06]] := by decide

/-- StepRunsTableWord. -/
theorem test_witness_table_word : decodeTableWord 32 0x01000000 = some (.csum []) := by decide

/-- StepIdle and StepReset. -/
theorem test_witness_idle_reset :
    State.reset.pending = []
    ∧ ({ State.reset with pending := [.reset, .issue []] } : State).pending = .reset :: [.issue []] := by
  decide

/-- Complement, FoldClosedForm, FoldTwoPasses, AllOnesWords: the ends of their ranges. -/
theorem test_witness_numbers :
    (15 : Nat) < 16 ∧ (0 : Nat) < 1 ∧ (0xFFFFFFFF : Nat) < 2 ^ 32 ∧ (1 : Nat) ≤ 1
      ∧ (0xFFFF : Nat) < 0x10000 := by decide

/-- EndAroundCarryAdder: a word sequence whose prefix has a non-zero word. -/
theorem test_witness_adder : ∃ w ∈ (words (pad [0x00, 0x01])).take 1, w ≠ 0 := by decide

/-- EvenBoundaryAdditivity, WordOrder: even strings, and a permutation of their words. -/
theorem test_witness_words :
    ([1, 2] : List Byte).length % 2 = 0 ∧ (words [1, 2, 3, 4]).Perm (words [3, 4, 1, 2]) := by decide

/-- SelfVerification: the zeros at the end of a string, and a string whose checksum is 0. -/
theorem test_witness_self_verification :
    (2 % 2 = 0 ∧ 2 + 1 < ([0x45, 0x00, 0x00, 0x00] : List Byte).length
      ∧ byteAt [0x45, 0x00, 0x00, 0x00] 2 = 0x00#8 ∧ byteAt [0x45, 0x00, 0x00, 0x00] (2 + 1) = 0x00#8)
    ∧ csum [0xff, 0xff, 0x00, 0x00] = 0x0000#16 := by decide

/-- AccumulatorWidth, LengthFieldsExact, AssembleIcmpResult, AssembleTcpResult: the largest lengths. -/
theorem test_witness_lengths :
    (List.replicate 131074 0#8).length ≤ 2 * 65537 ∧ (List.replicate 65535 0#8).length ≤ 65535
      ∧ (List.replicate 65507 0#8).length ≤ 65507 ∧ ¬ (List.replicate 65508 0#8).length ≤ 65507
      ∧ ¬ (List.replicate 65496 0#8).length ≤ 65495 ∧ ¬ (List.replicate 65516 0#8).length ≤ 65515 := by
  simp only [List.length_replicate]
  decide

/-- Ip4hdrResult, TcphdrResult, the results of ASSEMBLE, AssembleEqualsParts, the packet properties: good
verdicts with a payload that fits. -/
theorem test_witness_valid :
    ip12.av.sv = true ∧ ip12.av.dv = true ∧ ping.length ≤ 65535 := by decide

/-- AssembleAddressCheck and the address checks: either verdict bad. -/
theorem test_witness_invalid :
    (ipBad.av.sv = false ∨ ipBad.av.dv = false)
    ∧ (({ ipBad with av := ⟨false, true⟩ } : IpPart).av.sv = false
      ∨ ({ ipBad with av := ⟨false, true⟩ } : IpPart).av.dv = false) := by decide

/-- FailuresLeaveNothing: a descriptor that fails. -/
theorem test_witness_failure :
    ∃ t, (issued [[0x06]]).pending = .issue [0x06] :: [] ∧ step (issued [[0x06]]) = .next t
      ∧ t.res.err ≠ 0x00#8 := ⟨_, rfl, rfl, by decide⟩

/-- CommandFrame: a command that answers a next state. -/
theorem test_witness_exec : ∃ t, exec (.csum [1]) State.reset = .next t := ⟨_, rfl⟩

/-- ReadsHaveNoEffect, HostReadsFields: a pending read of each field, answered. -/
theorem test_witness_reads :
    (∃ t, step { State.reset with pending := [.read .err] } = .next t)
    ∧ (∃ t, step { State.reset with pending := [.read .csumV] } = .next t)
    ∧ (∃ t, step { State.reset with pending := [.read .outLen] } = .next t)
    ∧ (∃ t, step { State.reset with res := { Latch.reset with csumV := true },
                                    pending := [.read .csum] } = .next t)
    ∧ step { State.reset with pending := [.read .csum] } = .refused .csumHasNoValue :=
  ⟨⟨_, rfl⟩, ⟨_, rfl⟩, ⟨_, rfl⟩, ⟨_, rfl⟩, rfl⟩

/-- HostReadsBytes: a latch that holds bytes, read at its last byte and just above it. -/
theorem test_witness_holds_bytes :
    HoldsBytes twoBytes [0xaa, 0xbb] ∧ (1 : U17).toNat < 65575 ∧ (65574 : U17).toNat < 65575 := by
  refine ⟨⟨rfl, rfl, rfl, fun k => ?_⟩, by decide, by decide⟩
  match k with
  | 0 => rfl
  | 1 => rfl
  | n + 2 => simp [twoBytes, Memory.read]

/-- StepKeepsInvariant: a state that meets the invariant and steps, for each kind of interaction. -/
theorem test_witness_invariant :
    MachineInv State.reset ∧ MachineInv (issued [[0x01, 0x00, 0x00, 0x00]])
    ∧ (∃ t, step (issued [[0x01, 0x00, 0x00, 0x00]]) = .next t)
    ∧ MachineInv { State.reset with res := twoBytes, pending := [.reset, .read .outLen] } := by
  refine ⟨by decide, by decide, ⟨_, rfl⟩, by decide⟩

/-- AsmWellFormed. -/
theorem test_witness_asm_line : asmLine "CSUM buf=[01]".toList = .ok (some (.csum [0x01])) := by
  decide +kernel

/-- AsmDefaults: a line without `ttl`, whose command has a `TTL`. -/
theorem test_witness_asm_defaults :
    asmCommand "ASSEMBLE".toList [("kind".toList, "17".toList), ("src".toList, "10.0.0.1".toList),
        ("dst".toList, "10.0.0.2".toList), ("ipid".toList, "0".toList)]
      = .ok (.assembleUnsupported 17 ip12)
    ∧ operand [("kind".toList, "17".toList), ("src".toList, "10.0.0.1".toList),
        ("dst".toList, "10.0.0.2".toList), ("ipid".toList, "0".toList)] "ttl" = none
    ∧ "ipid" ∈ mandatoryOperands (.assembleUnsupported 17 ip12) := by
  refine ⟨by decide +kernel, by decide +kernel, by decide⟩

end Sys2Proof.Tests
end

/-! PROOFS. The result latch and the host's reads: what the decoder accepts is well-formed, what one written latch
holds, how a descriptor's step ends, what a read answers; and the obligations of the family assembled from them. -/

namespace Sys2Proof.Proofs

open Sys2Proof.Machine Sys2Proof.Laws

/-! ### What the decoder accepts is well-formed -/

/-- A payload that reaches from its offset to the end of a descriptor of the required length is as long as `PLEN`
says, so `PLEN` bounds it. -/
theorem payload_length_le {d : List Byte} {n : Nat} (h : d.length = n + plenOf d) :
    (d.drop n).length ≤ 65535 := by
  have hplen : plenOf d < 65536 := (be16At d 2).isLt
  rw [List.length_drop]
  omega

theorem decodeCsum_wellFormed {d : List Byte} {i : Instr} (h : decodeCsum d = .ok i) :
    i.WellFormed := by
  simp only [decodeCsum, ne_eq] at h
  split_ifs at h with _ hlen
  cases h
  exact (wf_csum _).2 (payload_length_le hlen)

theorem decodeIp4hdr_wellFormed {d : List Byte} {i : Instr} (h : decodeIp4hdr d = .ok i) :
    i.WellFormed := by
  simp only [decodeIp4hdr] at h
  split_ifs at h
  cases h
  exact wf_ip4hdr _ _ _

theorem decodeIcmphdr_wellFormed {d : List Byte} {i : Instr} (h : decodeIcmphdr d = .ok i) :
    i.WellFormed := by
  simp only [decodeIcmphdr, ne_eq] at h
  split_ifs at h with _ hlen
  cases h
  exact (wf_icmphdr _ _).2 (payload_length_le hlen)

theorem decodeTcphdr_wellFormed {d : List Byte} {i : Instr} (h : decodeTcphdr d = .ok i) :
    i.WellFormed := by
  simp only [decodeTcphdr, ne_eq] at h
  split_ifs at h with _ hlen
  cases h
  exact (wf_tcphdr _ _ _).2 (payload_length_le hlen)

theorem decodeAssemble_wellFormed {d : List Byte} {i : Instr} (h : decodeAssemble d = .ok i) :
    i.WellFormed := by
  simp only [decodeAssemble, ne_eq] at h
  split_ifs at h with _ _ hicmp hlen htcp hlen
  · cases h
    exact (wf_assembleIcmp _ _ _).2 (payload_length_le hlen)
  · cases h
    exact (wf_assembleTcp _ _ _).2 (payload_length_le hlen)
  · cases h
    exact (wf_assembleUnsupported _ _).2 ⟨hicmp, htcp⟩

/-- Every command a descriptor decodes to is well-formed (30_encoding.md R53). -/
theorem decode_wellFormed {d : List Byte} {i : Instr} (h : decode d = .ok i) : i.WellFormed := by
  simp only [decode] at h
  split_ifs at h
  · exact decodeCsum_wellFormed h
  · exact decodeIp4hdr_wellFormed h
  · exact decodeIcmphdr_wellFormed h
  · exact decodeTcphdr_wellFormed h
  · exact decodeAssemble_wellFormed h

/-! ### The latch one write leaves -/

theorem errCode_written {e : CmdError} (h : e ≠ .transmitError) : writtenCode (errCode e) := by
  cases e with
  | invalidAddress => exact .inr (.inl rfl)
  | unsupportedPacketKind => exact .inr (.inr (.inl rfl))
  | transmitError => exact absurd rfl h
  | illegalCommand => exact .inr (.inr (.inr rfl))

/-- A latch without bytes meets the invariant when its code is a written one and no checksum stands beside an
error. -/
theorem latchInv_of_no_bytes {r : Latch} (hbuf : r.outBuf = []) (hlen : r.outLen = 0#17)
    (hcode : writtenCode r.err) (herr : r.err ≠ 0x00#8 → r.csumV = false) : LatchInv r := by
  refine ⟨hbuf ▸ memory_wf_nil, ?_, ?_, hcode, fun h => ⟨herr h, hlen⟩, fun _ => hlen⟩
  · simp [hbuf, hlen]
  · simp [hlen]

theorem latchInv_reset : LatchInv Latch.reset :=
  latchInv_of_no_bytes rfl rfl (.inl rfl) fun _ => rfl

/-- The latch of a header or packet command: the bytes written into the empty buffer stand at exactly the offsets
below their number. -/
theorem latchInv_of_bytes {b : List Byte} (h : b.length ≤ Config.outMax) (c : U16) :
    LatchInv { err := 0x00#8, csumV := false, csum := c, outLen := BitVec.ofNat 17 b.length,
               outBuf := Memory.writeBytes [] 0 b } := by
  refine ⟨memory_writeBytes_wf _ _ _ memory_wf_nil, ?_, ?_, .inl rfl, fun h => absurd rfl h, by simp⟩
  · rw [outLen_toNat h, memory_keys_fresh, List.range_eq_range']
  · rw [outLen_toNat h]
    exact h

/-- Writing the latch gives one that meets the invariant, whatever it held, for every outcome a command has
(60_exceptions.md R153: none is `TransmitError`). -/
theorem writeLatch_latchInv {r : CmdResult} {s t : State} (hr : r ≠ .error .transmitError)
    (h : writeLatch r s = .next t) : LatchInv t.res := by
  cases r with
  | okU16 c =>
    cases h
    exact latchInv_of_no_bytes rfl rfl (.inl rfl) fun h => absurd rfl h
  | okBytes b =>
    by_cases hb : b.length ≤ Config.outMax
    · rw [writeLatch_okBytes hb] at h
      cases h
      exact latchInv_of_bytes hb _
    · simp [writeLatch, hb] at h
  | error e =>
    cases h
    exact latchInv_of_no_bytes rfl rfl (errCode_written fun he => hr (he ▸ rfl)) fun _ => rfl

/-- A descriptor ends in one write of the latch, with an outcome its bytes alone decide and that is never
`TransmitError` (10_state.md R11). -/
theorem runDescriptor_outcome (d : List Byte) :
    ∃ r, r ≠ .error .transmitError ∧ ∀ s, runDescriptor d s = writeLatch r s := by
  cases h : decode d with
  | ok i =>
    obtain ⟨r, hr, hexec⟩ := exec_outcome i
    exact ⟨r, hr, fun s => by simp [runDescriptor, h, hexec]⟩
  | error e => exact ⟨.error .illegalCommand, by simp, fun s => by simp [runDescriptor, h, raise]⟩

/-! ### The invariant -/

/-- Settles O53: the reset latch holds no bytes, and nothing waits. -/
theorem resetInvariant : Obligations.ResetInvariant := by
  unfold Obligations.ResetInvariant
  exact ⟨latchInv_reset, by simp⟩

/-- Settles O54, by what each step does to the latch: an idle step and a host read leave it, a descriptor and the
reset input write it anew; and the interactions still waiting were waiting before. -/
theorem stepKeepsInvariant : Obligations.StepKeepsInvariant := by
  unfold Obligations.StepKeepsInvariant
  rintro s t ⟨hlatch, hpending⟩ hstep
  have hrest : ∀ e rest, s.pending = e :: rest → ∀ e' ∈ rest, deliverable e' = true :=
    fun e rest hp e' he' => hpending e' (hp ▸ List.mem_cons_of_mem e he')
  obtain ⟨-, rfl⟩ | ⟨d, rest, hp, hrun⟩ | ⟨f, rest, v, hp, -, rfl⟩ | ⟨rest, hp, rfl⟩ :=
    step_cases hstep
  · exact ⟨hlatch, hpending⟩
  · obtain ⟨r, hr, houtcome⟩ := runDescriptor_outcome d
    rw [houtcome] at hrun
    obtain ⟨htp, -⟩ := writeLatch_frame hrun
    exact ⟨writeLatch_latchInv hr hrun, htp ▸ hrest _ _ hp⟩
  · exact ⟨hlatch, hrest _ _ hp⟩
  · exact ⟨latchInv_reset, hrest _ _ hp⟩

/-! ### What a command leaves -/

/-- An offset holds no value exactly when it is not listed. -/
theorem memory_read_eq_none_iff (m : Memory) (k : Nat) :
    Memory.read m k = none ↔ k ∉ m.map Prod.fst := by
  induction m with
  | nil => simp
  | cons c rest ih =>
    obtain ⟨k', b⟩ := c
    by_cases hk : k' = k
    · simp [Memory.read, hk]
    · simp [Memory.read, hk, ih, Ne.symm hk]

/-- In a latch that meets the invariant an offset holds no value exactly when it is at or above `OUT_LEN`. -/
theorem latchInv_read_eq_none_iff {r : Latch} (h : LatchInv r) (k : Nat) :
    Memory.read r.outBuf k = none ↔ r.outLen.toNat ≤ k := by
  obtain ⟨-, hkeys, -⟩ := h
  rw [memory_read_eq_none_iff, hkeys, List.mem_range, not_lt]

/-- Settles O47: a command is one write of the latch, which leaves the host's side and a latch that meets the
invariant, so `OUT_LEN` tells which offsets hold a value. -/
theorem commandFrame : Obligations.CommandFrame := by
  unfold Obligations.CommandFrame
  intro i s t h
  obtain ⟨r, hr, hexec⟩ := exec_outcome i
  rw [hexec] at h
  have hread := latchInv_read_eq_none_iff (writeLatch_latchInv hr h)
  refine ⟨writeLatch_frame h, fun k hk => (hread k).2 hk, fun k hk => ?_⟩
  exact Option.ne_none_iff_exists'.1 fun hnone => absurd ((hread k).1 hnone) (not_le.2 hk)

/-! ### Every descriptor's step ends with the latch written -/

/-- A body that answers a next state still does behind the address check. -/
theorem withAddresses_next (av : AddrValid) {s : State} {body : Result} (h : ∃ t, body = .next t) :
    ∃ t, withAddresses av s body = .next t := by
  cases hav : addrsValid av with
  | true => rwa [withAddresses_valid hav]
  | false => exact ⟨_, (withAddresses_invalid hav s body).trans (raise_eq _ s)⟩

theorem writeLatch_okBytes_next {b : List Byte} (h : b.length ≤ 65575) (s : State) :
    ∃ t, writeLatch (.okBytes b) s = .next t :=
  ⟨_, writeLatch_okBytes h s⟩

/-- A well-formed command answers a next state: `OUT_BUF` holds the longest packet, a 20-byte header around a
20-byte header and 65535 bytes of payload (00_scope.md R6). -/
theorem exec_next {i : Instr} (h : i.WellFormed) (s : State) : ∃ t, exec i s = .next t := by
  cases i with
  | csum buf => exact ⟨_, writeLatch_okU16 (csum buf) s⟩
  | ip4hdr proto ip tlen =>
    exact withAddresses_next _ (writeLatch_okBytes_next (by simp) s)
  | icmphdr icmp payload => exact writeLatch_okBytes_next (b := icmphdr icmp payload) (by simp) s
  | tcphdr addr tcp payload =>
    exact withAddresses_next _ (writeLatch_okBytes_next (by simp) s)
  | assembleIcmp ip icmp payload =>
    have hlen := (wf_assembleIcmp _ _ _).1 h
    exact withAddresses_next _
      (writeLatch_okBytes_next (by rw [packet_length, icmphdr_length]; omega) s)
  | assembleTcp ip tcp payload =>
    have hlen := (wf_assembleTcp _ _ _).1 h
    exact withAddresses_next _
      (writeLatch_okBytes_next (by rw [packet_length, tcphdr_length]; omega) s)
  | assembleUnsupported kind ip => exact withAddresses_next _ ⟨_, raise_eq _ s⟩

theorem runDescriptor_next (d : List Byte) (s : State) : ∃ t, runDescriptor d s = .next t := by
  obtain ⟨i, hdecode, hrun⟩ | ⟨-, -, hrun⟩ := runDescriptor_cases d s
  · exact hrun ▸ exec_next (decode_wellFormed hdecode) s
  · exact ⟨_, hrun.trans (raise_eq _ s)⟩

/-- A descriptor's step answers a next state, with what waited behind the descriptor still waiting. -/
theorem step_issue_next {s : State} {d : List Byte} {rest : List HostEvent}
    (h : s.pending = .issue d :: rest) : ∃ t, step s = .next t ∧ t.pending = rest := by
  obtain ⟨t, ht⟩ := runDescriptor_next d { s with pending := rest }
  obtain ⟨r, -, houtcome⟩ := runDescriptor_outcome d
  obtain ⟨hpending, -⟩ := writeLatch_frame ((houtcome _).symm.trans ht)
  exact ⟨t, (step_issue h).trans ht, hpending⟩

/-! ### The host sees what the last descriptor alone leaves -/

/-- One outcome written into any two states leaves the same latch to see: only the free value of `CSUM` comes from
the state, and only where the host cannot read it (10_state.md R16). -/
theorem writeLatch_visible {r : CmdResult} {s s' t t' : State} (h : writeLatch r s = .next t)
    (h' : writeLatch r s' = .next t') : visible t.res = visible t'.res := by
  cases r with
  | okU16 c =>
    cases h
    cases h'
    rfl
  | okBytes b =>
    by_cases hb : b.length ≤ Config.outMax
    · rw [writeLatch_okBytes hb] at h h'
      cases h
      cases h'
      rfl
    · simp [writeLatch, hb] at h
  | error e =>
    cases h
    cases h'
    rfl

/-- Settles O48: either step writes the latch with the outcome the descriptor decides. -/
theorem latchFunctionOfDescriptor : Obligations.LatchFunctionOfDescriptor := by
  unfold Obligations.LatchFunctionOfDescriptor
  intro d s s' rest rest' hp hp'
  obtain ⟨t, ht, -⟩ := step_issue_next hp
  obtain ⟨t', ht', -⟩ := step_issue_next hp'
  obtain ⟨r, -, houtcome⟩ := runDescriptor_outcome d
  refine ⟨t, t', ht, ht', ?_⟩
  rw [step_issue hp, houtcome] at ht
  rw [step_issue hp', houtcome] at ht'
  exact writeLatch_visible ht ht'

/-- A run whose first step answers goes on from that step's state. -/
theorem run_succ {n : Nat} {s u : State} (h : step s = .next u) :
    Host.Core.run Sys2Proof.core (n + 1) s = Host.Core.run Sys2Proof.core n u := by
  simp [Host.Core.run, Sys2Proof.core, h]

theorem run_one {s t : State} (h : step s = .next t) :
    Host.Core.run Sys2Proof.core 1 s = .next t := run_succ h

/-- Settles O49, by induction on the descriptors before the last: each is one step, and the last one's step is O48's. -/
theorem nothingPersists : Obligations.NothingPersists := by
  unfold Obligations.NothingPersists
  intro ds d s s' hp hp'
  induction ds generalizing s with
  | nil =>
    obtain ⟨t, ht, hpending⟩ := step_issue_next hp
    obtain ⟨t₁, t', ht₁, ht', hvisible⟩ := latchFunctionOfDescriptor d s s' [] [] hp hp'
    cases ht.symm.trans ht₁
    exact ⟨t, t', run_one ht, run_one ht', hpending, hvisible⟩
  | cons d₀ ds ih =>
    obtain ⟨u, hu, hpending⟩ := step_issue_next hp
    rw [List.length_cons, run_succ hu]
    exact ih u hpending

/-! ### Host reads -/

/-- A read of a field with a value puts the value into `readData`. -/
theorem step_read_next {s : State} {f : LatchField} {rest : List HostEvent} {v : ReadData}
    (hp : s.pending = .read f :: rest) (h : readLatch f s.res = .next v) :
    step s = .next { s with pending := rest, readData := some v } := by
  simp [step_read hp, hostRead, h]

/-- A read of a field without a value is refused. -/
theorem step_read_refused {s : State} {f : LatchField} {rest : List HostEvent} {e : Refusal}
    (hp : s.pending = .read f :: rest) (h : readLatch f s.res = .refused e) :
    step s = .refused e := by
  simp [step_read hp, hostRead, h]

theorem readLatch_csum (r : Latch) :
    readLatch .csum r = if r.csumV then .next (.csum r.csum) else .refused .csumHasNoValue := rfl

/-- An offset of the buffer below `OUT_LEN` whose byte is listed answers it. -/
theorem readLatch_outBuf_next {r : Latch} {off : U17} {b : Byte} (hmax : off.toNat < 65575)
    (hlt : off.toNat < r.outLen.toNat) (hb : Memory.read r.outBuf off.toNat = some b) :
    readLatch (.outBuf off) r = .next (.outBuf off b) := by
  simp [readLatch, Config.outMax, not_le.2 hmax, hlt, hb]

/-- An offset of the buffer at or above `OUT_LEN` is refused. -/
theorem readLatch_outBuf_refused {r : Latch} {off : U17} (hmax : off.toNat < 65575)
    (hle : r.outLen.toNat ≤ off.toNat) :
    readLatch (.outBuf off) r = .refused (.outBufHasNoValue off.toNat) := by
  simp [readLatch, Config.outMax, not_le.2 hmax, not_lt.2 hle]

/-- Settles O50: a read that answers changes `readData` and the interactions waiting, so the latch gives the same
value to the read that follows. -/
theorem readsHaveNoEffect : Obligations.ReadsHaveNoEffect := by
  unfold Obligations.ReadsHaveNoEffect
  intro f s t rest hp h
  rw [step_read hp] at h
  obtain ⟨v, hv, rfl⟩ := hostRead_next h
  exact ⟨rfl, rfl, rfl, v, hv, rfl, step_read_next rfl hv⟩

/-- Settles O52: an offset below the number of bytes is below `OUT_LEN` and its byte is listed; any other offset of
the buffer is at or above `OUT_LEN`. -/
theorem hostReadsBytes : Obligations.HostReadsBytes := by
  unfold Obligations.HostReadsBytes
  rintro s rest b off ⟨-, -, hlen, hread⟩ hmax hp
  by_cases hoff : off.toNat < b.length
  · rw [dif_pos hoff]
    have hbyte : Memory.read s.res.outBuf off.toNat = some b[off.toNat] := by
      rw [hread, List.getElem?_eq_getElem hoff]
    exact step_read_next hp (readLatch_outBuf_next hmax (hlen ▸ hoff) hbyte)
  · rw [dif_neg hoff]
    exact step_read_refused hp (readLatch_outBuf_refused hmax (hlen ▸ not_lt.1 hoff))

/-- Settles O51: `ERR`, `CSUM_V` and `OUT_LEN` answer always, `CSUM` by the two cases of `CSUM_V`. -/
theorem hostReadsFields : Obligations.HostReadsFields := by
  unfold Obligations.HostReadsFields
  intro s rest
  refine ⟨fun hp => step_read_next hp rfl, fun hp => step_read_next hp rfl,
    fun hp => step_read_next hp rfl, fun hp => ?_⟩
  split
  case isTrue hv => exact step_read_next hp (by rw [readLatch_csum, if_pos hv])
  case isFalse hv => exact step_read_refused hp (by rw [readLatch_csum, if_neg hv])

/-- Settles O11: the reset latch has `CSUM_V = 0` and `OUT_LEN = 0`, so every offset is at or above it. -/
theorem resetLatch : Obligations.ResetLatch := by
  unfold Obligations.ResetLatch
  exact ⟨rfl, rfl, rfl, rfl, fun off hmax => readLatch_outBuf_refused hmax (Nat.zero_le _)⟩

end Sys2Proof.Proofs

/-! PROOFS. The family of the atomic step (20_memory.md): a descriptor's step is its command. -/

namespace Sys2Proof.Proofs

open Sys2Proof.Machine Sys2Proof.Laws

/-- A descriptor the decoder accepts is executed as the command it decodes to. -/
theorem runDescriptor_of_decode {d : List Byte} {i : Instr} (h : decode d = .ok i) (s : State) :
    runDescriptor d s = exec i s := by
  simp [runDescriptor, h]

/-- Settles O6: the step takes the descriptor off the host's interactions and runs what it decodes to. -/
theorem stepRunsDecoded : Obligations.StepRunsDecoded := by
  unfold Obligations.StepRunsDecoded
  intro s d rest i hpending hdecode
  rw [step_issue hpending, runDescriptor_of_decode hdecode]

end Sys2Proof.Proofs

/-! PROOFS. Descriptors (30_encoding.md): the decoder's formats as shapes, the operand parts read back from their
own bytes and written back from the bytes they were read from; and the obligations assembled from them. -/

namespace Sys2Proof.Proofs

open Sys2Proof.Machine Sys2Proof.Laws

/-! ### The decoder, format by format -/

/-- A check that rejects is passed exactly when its condition fails. -/
theorem check_eq_ok_iff {c : Prop} [Decidable c] {e : DecodeError} {x : Except DecodeError Instr}
    {i : Instr} : (if c then .error e else x) = .ok i ↔ ¬ c ∧ x = .ok i := by
  split <;> simp_all

theorem decodeCsum_eq_ok_iff {d : List Byte} {i : Instr} :
    decodeCsum d = .ok i ↔ modOf d = 0x00#8 ∧ d.length = 4 + plenOf d ∧ i = .csum (d.drop 4) := by
  simp only [decodeCsum, check_eq_ok_iff, ne_eq, not_not, Except.ok.injEq,
    eq_comm (b := i)]

theorem decodeIp4hdr_eq_ok_iff {d : List Byte} {i : Instr} :
    decodeIp4hdr d = .ok i ↔ plenOf d = 0 ∧ d.length = 18 ∧ avClean (byteAt d 4) = true
      ∧ i = .ip4hdr (modOf d) (ipPartAt d 4) (be16At d 16) := by
  simp only [decodeIp4hdr, check_eq_ok_iff, ne_eq, not_not, Bool.not_eq_false, Except.ok.injEq,
    eq_comm (b := i)]

theorem decodeIcmphdr_eq_ok_iff {d : List Byte} {i : Instr} :
    decodeIcmphdr d = .ok i ↔ modOf d = 0x00#8 ∧ d.length = 10 + plenOf d
      ∧ i = .icmphdr (icmpPartAt d 4) (d.drop 10) := by
  simp only [decodeIcmphdr, check_eq_ok_iff, ne_eq, not_not, Except.ok.injEq,
    eq_comm (b := i)]

theorem decodeTcphdr_eq_ok_iff {d : List Byte} {i : Instr} :
    decodeTcphdr d = .ok i ↔ modOf d = 0x00#8 ∧ d.length = 28 + plenOf d
      ∧ avClean (byteAt d 4) = true ∧ i = .tcphdr (addrPartAt d 4) (tcpPartAt d 13) (d.drop 28) := by
  simp only [decodeTcphdr, check_eq_ok_iff, ne_eq, not_not, Bool.not_eq_false, Except.ok.injEq,
    eq_comm (b := i)]

/-- Formats A1, A6 and AX: the three kinds behind one check of the common part. -/
theorem decodeAssemble_eq_ok_iff {d : List Byte} {i : Instr} :
    decodeAssemble d = .ok i ↔ 16 ≤ d.length ∧ avClean (byteAt d 4) = true
      ∧ ((modOf d = 0x01#8 ∧ d.length = 22 + plenOf d
            ∧ i = .assembleIcmp (ipPartAt d 4) (icmpPartAt d 16) (d.drop 22))
        ∨ (modOf d = 0x06#8 ∧ d.length = 31 + plenOf d
            ∧ i = .assembleTcp (ipPartAt d 4) (tcpPartAt d 16) (d.drop 31))
        ∨ (modOf d ≠ 0x01#8 ∧ modOf d ≠ 0x06#8
            ∧ i = .assembleUnsupported (modOf d) (ipPartAt d 4))) := by
  simp only [decodeAssemble, check_eq_ok_iff, not_lt, Bool.not_eq_false]
  by_cases hicmp : modOf d = 0x01#8
  · rw [if_pos hicmp, check_eq_ok_iff]
    simp [hicmp, eq_comm (b := i)]
  · rw [if_neg hicmp]
    by_cases htcp : modOf d = 0x06#8
    · rw [if_pos htcp, check_eq_ok_iff]
      simp [htcp, eq_comm (b := i)]
    · rw [if_neg htcp]
      simp [hicmp, htcp, eq_comm (b := i)]

/-- The decoder by the opcode (30_encoding.md R53): the five opcodes exclude each other. -/
theorem decode_eq_ok_iff {d : List Byte} {i : Instr} :
    decode d = .ok i ↔
      (4 ≤ d.length ∧ opcOf d = 0x01#8 ∧ decodeCsum d = .ok i)
      ∨ (4 ≤ d.length ∧ opcOf d = 0x02#8 ∧ decodeIp4hdr d = .ok i)
      ∨ (4 ≤ d.length ∧ opcOf d = 0x03#8 ∧ decodeIcmphdr d = .ok i)
      ∨ (4 ≤ d.length ∧ opcOf d = 0x04#8 ∧ decodeTcphdr d = .ok i)
      ∨ (4 ≤ d.length ∧ opcOf d = 0x05#8 ∧ decodeAssemble d = .ok i) := by
  simp only [decode, check_eq_ok_iff, not_lt]
  split_ifs <;> simp_all

/-- Bits 7:2 of `AV` are zero exactly when the byte is below 4. -/
theorem avClean_iff (av : Byte) : avClean av = true ↔ av.toNat < 4 := by
  have hlt := av.isLt
  simp only [avClean, beq_iff_eq, ← BitVec.toNat_inj, BitVec.extractLsb'_toNat,
    Nat.shiftRight_eq_div_pow, BitVec.toNat_ofNat]
  omega

theorem plenOf_eq_zero_iff (d : List Byte) : plenOf d = 0 ↔ be16At d 2 = 0#16 := by
  simp [plenOf, ← BitVec.toNat_inj]

/-- Settles O4, format by format: the statement's shapes are the decoder's, with the operand parts written out at
absolute offsets and the length check before the format's own left out where that one implies it. -/
theorem decodeShape : Obligations.DecodeShape := by
  unfold Obligations.DecodeShape
  intro d i
  rw [decode_eq_ok_iff]
  refine or_congr ?csum (or_congr ?ip4hdr (or_congr ?icmphdr (or_congr ?tcphdr ?assemble)))
  case csum => rw [decodeCsum_eq_ok_iff]; rfl
  case ip4hdr =>
    rw [decodeIp4hdr_eq_ok_iff, plenOf_eq_zero_iff, avClean_iff]
    exact ⟨fun ⟨_, hopc, hplen, hlen, hav, hi⟩ => ⟨hlen, hopc, hplen, hav, hi⟩,
      fun ⟨hlen, hopc, hplen, hav, hi⟩ => ⟨by omega, hopc, hplen, hlen, hav, hi⟩⟩
  case icmphdr =>
    rw [decodeIcmphdr_eq_ok_iff]
    exact ⟨fun ⟨_, hopc, hmod, hlen, hi⟩ => ⟨hlen, hopc, hmod, hi⟩,
      fun ⟨hlen, hopc, hmod, hi⟩ => ⟨by omega, hopc, hmod, hlen, hi⟩⟩
  case tcphdr =>
    rw [decodeTcphdr_eq_ok_iff, avClean_iff]
    exact ⟨fun ⟨_, hopc, hmod, hlen, hav, hi⟩ => ⟨hlen, hopc, hmod, hav, hi⟩,
      fun ⟨hlen, hopc, hmod, hav, hi⟩ => ⟨by omega, hopc, hmod, hlen, hav, hi⟩⟩
  case assemble =>
    rw [decodeAssemble_eq_ok_iff, avClean_iff]
    constructor
    · rintro ⟨-, hopc, hmin, hav, ⟨hmod, hlen, hi⟩ | ⟨hmod, hlen, hi⟩ | ⟨hicmp, htcp, hi⟩⟩
      · exact .inl ⟨hlen, hopc, hmod, hav, hi⟩
      · exact .inr (.inl ⟨hlen, hopc, hmod, hav, hi⟩)
      · exact .inr (.inr ⟨hmin, hopc, hicmp, htcp, hav, hi⟩)
    · rintro (⟨hlen, hopc, hmod, hav, hi⟩ | ⟨hlen, hopc, hmod, hav, hi⟩
        | ⟨hmin, hopc, hicmp, htcp, hav, hi⟩)
      · exact ⟨by omega, hopc, by omega, hav, .inl ⟨hmod, hlen, hi⟩⟩
      · exact ⟨by omega, hopc, by omega, hav, .inr (.inl ⟨hmod, hlen, hi⟩)⟩
      · exact ⟨by omega, hopc, hmin, hav, .inr (.inr ⟨hicmp, htcp, hi⟩)⟩

/-! ### Operand parts read back from their own bytes -/

theorem avClean_encodeAv (av : AddrValid) : avClean (encodeAv av) = true := by
  obtain ⟨sv, dv⟩ := av
  cases sv <;> cases dv <;> rfl

theorem avOf_encodeAv (av : AddrValid) : avOf (encodeAv av) = av := by
  obtain ⟨sv, dv⟩ := av
  cases sv <;> cases dv <;> rfl

theorem byteAt_drop (d : List Byte) (n i : Nat) : byteAt (d.drop n) i = byteAt d (n + i) := by
  simp [byteAt]

theorem be16At_drop (d : List Byte) (n i : Nat) : be16At (d.drop n) i = be16At d (n + i) := by
  simp [be16At, byteAt_drop, Nat.add_assoc]

theorem be32At_drop (d : List Byte) (n i : Nat) : be32At (d.drop n) i = be32At d (n + i) := by
  simp [be32At, be16At_drop, Nat.add_assoc]

theorem addrAt_drop (d : List Byte) (n i : Nat) : addrAt (d.drop n) i = addrAt d (n + i) := by
  simp [addrAt, byteAt_drop, Nat.add_assoc]

theorem be16At_of_drop {d l : List Byte} {a : Nat} {v : U16} (h : d.drop a = be16 v ++ l) :
    be16At d a = v := by
  rw [← be16At_be16 v l, ← h, be16At_drop, Nat.add_zero]

theorem ipPartAt_of_drop {d l : List Byte} {a : Nat} {p : IpPart}
    (h : d.drop a = encodeIpPart p ++ l) : ipPartAt d a = p := by
  have hshift : ipPartAt d a = ipPartAt (d.drop a) 0 := by
    simp [ipPartAt, byteAt_drop, be16At_drop, addrAt_drop]
  have hread : ipPartAt (encodeIpPart p ++ l) 0
      = { p with av := avOf (encodeAv p.av), ipid := be16At (be16 p.ipid ++ []) 0 } := rfl
  rw [hshift, h, hread, avOf_encodeAv, be16At_be16]

theorem addrPartAt_of_drop {d l : List Byte} {a : Nat} {p : AddrPart}
    (h : d.drop a = encodeAddrPart p ++ l) : addrPartAt d a = p := by
  have hshift : addrPartAt d a = addrPartAt (d.drop a) 0 := by
    simp [addrPartAt, byteAt_drop, addrAt_drop]
  have hread : addrPartAt (encodeAddrPart p ++ l) 0 = { p with av := avOf (encodeAv p.av) } := rfl
  rw [hshift, h, hread, avOf_encodeAv]

theorem icmpPartAt_of_drop {d l : List Byte} {a : Nat} {p : IcmpPart}
    (h : d.drop a = encodeIcmpPart p ++ l) : icmpPartAt d a = p := by
  have hshift : icmpPartAt d a = icmpPartAt (d.drop a) 0 := by
    simp [icmpPartAt, byteAt_drop, be16At_drop]
  have hread : icmpPartAt (encodeIcmpPart p ++ l) 0
      = { p with id := be16At (be16 p.id ++ []) 0, seq := be16At (be16 p.seq ++ []) 0 } := rfl
  rw [hshift, h, hread, be16At_be16, be16At_be16]

theorem tcpPartAt_of_drop {d l : List Byte} {a : Nat} {p : TcpPart}
    (h : d.drop a = encodeTcpPart p ++ l) : tcpPartAt d a = p := by
  have hshift : tcpPartAt d a = tcpPartAt (d.drop a) 0 := by
    simp [tcpPartAt, byteAt_drop, be16At_drop, be32At_drop]
  have hread : tcpPartAt (encodeTcpPart p ++ l) 0
      = { p with sport := be16At (be16 p.sport ++ []) 0, dport := be16At (be16 p.dport ++ []) 0,
                 seqn := be32At (be32 p.seqn ++ []) 0, ackn := be32At (be32 p.ackn ++ []) 0,
                 win := be16At (be16 p.win ++ []) 0 } := rfl
  rw [hshift, h, hread]
  simp only [be16At_be16, be32At_be32]

/-! ### The descriptor of a well-formed command decodes to it -/

theorem four_le_encode_length (i : Instr) : 4 ≤ (encode i).length := by
  cases i <;> simp [encode, encodePrefix]

/-- Settles O1, by the command's format: its checks pass on the descriptor the encoder lays out, whose length is
the one its first four bytes ask for, and each operand part is read where it was written. -/
theorem decodeEncode : Obligations.DecodeEncode := by
  unfold Obligations.DecodeEncode
  intro i h
  have hmin := four_le_encode_length i
  rw [decode_eq_ok_iff]
  cases i with
  | csum buf =>
    exact .inl ⟨hmin, rfl, decodeCsum_eq_ok_iff.2 ⟨rfl, (EncodeLength.csum buf h).1, rfl⟩⟩
  | ip4hdr proto ip tlen =>
    refine .inr (.inl ⟨hmin, rfl, decodeIp4hdr_eq_ok_iff.2
      ⟨EncodeLength.plen_of_prefix _ _ 0 (encodeIpPart ip ++ be16 tlen) (Nat.zero_le _), rfl,
        avClean_encodeAv ip.av, ?_⟩⟩)
    rw [ipPartAt_of_drop (l := be16 tlen) rfl, be16At_of_drop (v := tlen) (l := []) rfl]
    rfl
  | icmphdr icmp payload =>
    refine .inr (.inr (.inl ⟨hmin, rfl,
      decodeIcmphdr_eq_ok_iff.2 ⟨rfl, (EncodeLength.icmphdr icmp payload h).1, ?_⟩⟩))
    rw [icmpPartAt_of_drop (l := payload) rfl]
    rfl
  | tcphdr addr tcp payload =>
    refine .inr (.inr (.inr (.inl ⟨hmin, rfl, decodeTcphdr_eq_ok_iff.2
      ⟨rfl, (EncodeLength.tcphdr addr tcp payload h).1, avClean_encodeAv addr.av, ?_⟩⟩)))
    rw [addrPartAt_of_drop (l := encodeTcpPart tcp ++ payload) rfl,
      tcpPartAt_of_drop (l := payload) rfl]
    rfl
  | assembleIcmp ip icmp payload =>
    have hlen : (encode (.assembleIcmp ip icmp payload)).length
        = 22 + plenOf (encode (.assembleIcmp ip icmp payload)) := (EncodeLength.assembleIcmp ip icmp payload h).1
    refine .inr (.inr (.inr (.inr ⟨hmin, rfl, decodeAssemble_eq_ok_iff.2
      ⟨by omega, avClean_encodeAv ip.av, .inl ⟨rfl, hlen, ?_⟩⟩⟩)))
    rw [ipPartAt_of_drop (l := encodeIcmpPart icmp ++ payload) rfl,
      icmpPartAt_of_drop (l := payload) rfl]
    rfl
  | assembleTcp ip tcp payload =>
    have hlen : (encode (.assembleTcp ip tcp payload)).length
        = 31 + plenOf (encode (.assembleTcp ip tcp payload)) := (EncodeLength.assembleTcp ip tcp payload h).1
    refine .inr (.inr (.inr (.inr ⟨hmin, rfl, decodeAssemble_eq_ok_iff.2
      ⟨by omega, avClean_encodeAv ip.av, .inr (.inl ⟨rfl, hlen, ?_⟩)⟩⟩)))
    rw [ipPartAt_of_drop (l := encodeTcpPart tcp ++ payload) rfl,
      tcpPartAt_of_drop (l := payload) rfl]
    rfl
  | assembleUnsupported kind ip =>
    obtain ⟨hicmp, htcp⟩ := (wf_assembleUnsupported _ _).1 h
    refine .inr (.inr (.inr (.inr ⟨hmin, rfl, decodeAssemble_eq_ok_iff.2
      ⟨Nat.le_refl 16, avClean_encodeAv ip.av, .inr (.inr ⟨hicmp, htcp, ?_⟩)⟩⟩)))
    rw [ipPartAt_of_drop (l := []) rfl]
    rfl

/-! ### Operand parts written back from the bytes they were read from -/

theorem encodeAv_avOf {av : Byte} (h : avClean av = true) : encodeAv (avOf av) = av := by
  have hlt : av.toNat < 4 := (avClean_iff av).1 h
  have hcases : av = 0#8 ∨ av = 1#8 ∨ av = 2#8 ∨ av = 3#8 := by bv_omega
  rcases hcases with rfl | rfl | rfl | rfl <;> rfl

/-- A substring inside a string, byte by byte. -/
theorem slice_eq_map_byteAt {d : List Byte} {i n : Nat} (h : i + n ≤ d.length) :
    slice d i (i + n) = (List.range n).map fun k => byteAt d (i + k) := by
  have hle : n ≤ (d.drop i).length := by rw [List.length_drop]; omega
  have hlen : ((List.range n).map (byteAt (d.drop i))).length = n := by simp
  rw [slice, Nat.add_sub_cancel_left]
  conv_lhs => rw [bytes_expand (d.drop i) n hle]
  rw [List.take_left' hlen]
  exact List.map_congr_left fun k _ => byteAt_drop d i k

/-- What follows a substring, put after it. -/
theorem slice_append_drop (d : List Byte) {i j : Nat} (h : i ≤ j) :
    slice d i j ++ d.drop j = d.drop i := by
  conv_rhs => rw [← List.take_append_drop (j - i) (d.drop i), List.drop_drop, Nat.add_sub_cancel' h]
  rfl

theorem encodePrefix_eq_slice {d : List Byte} (h : 4 ≤ d.length) :
    encodePrefix (opcOf d) (modOf d) (plenOf d) = slice d 0 4 := by
  have htrunc : trunc16 (plenOf d) = be16At d 2 := by simp [trunc16, plenOf]
  rw [slice_eq_map_byteAt (n := 4) (by omega), encodePrefix, htrunc, be16_be16At]
  rfl

theorem encodeIpPart_ipPartAt {d : List Byte} {a : Nat} (h : a + 12 ≤ d.length)
    (hav : avClean (byteAt d a) = true) : encodeIpPart (ipPartAt d a) = slice d a (a + 12) := by
  rw [slice_eq_map_byteAt h, encodeIpPart, ipPartAt, encodeAv_avOf hav, be16_be16At]
  rfl

theorem encodeAddrPart_addrPartAt {d : List Byte} {a : Nat} (h : a + 9 ≤ d.length)
    (hav : avClean (byteAt d a) = true) : encodeAddrPart (addrPartAt d a) = slice d a (a + 9) := by
  rw [slice_eq_map_byteAt h, encodeAddrPart, addrPartAt, encodeAv_avOf hav]
  rfl

theorem encodeIcmpPart_icmpPartAt {d : List Byte} {a : Nat} (h : a + 6 ≤ d.length) :
    encodeIcmpPart (icmpPartAt d a) = slice d a (a + 6) := by
  rw [slice_eq_map_byteAt h, encodeIcmpPart, icmpPartAt, be16_be16At, be16_be16At]
  rfl

theorem encodeTcpPart_tcpPartAt {d : List Byte} {a : Nat} (h : a + 15 ≤ d.length) :
    encodeTcpPart (tcpPartAt d a) = slice d a (a + 15) := by
  rw [slice_eq_map_byteAt h, encodeTcpPart, tcpPartAt]
  simp only [be16_be16At, be32_be32At]
  rfl

/-! ### An accepted descriptor is the descriptor of what it decodes to -/

theorem encode_of_decodeCsum {d : List Byte} {i : Instr} (hmin : 4 ≤ d.length)
    (hopc : opcOf d = 0x01#8) (h : decodeCsum d = .ok i) : encode i = d := by
  obtain ⟨hmod, hlen, rfl⟩ := decodeCsum_eq_ok_iff.1 h
  have hpayload : (d.drop 4).length = plenOf d := by rw [List.length_drop]; omega
  rw [encode, hpayload, ← hopc, ← hmod, encodePrefix_eq_slice hmin,
    slice_append_drop d (by omega), List.drop_zero]

theorem encode_of_decodeIp4hdr {d : List Byte} {i : Instr} (hopc : opcOf d = 0x02#8)
    (h : decodeIp4hdr d = .ok i) : encode i = d := by
  obtain ⟨hplen, hlen, hav, rfl⟩ := decodeIp4hdr_eq_ok_iff.1 h
  have htail : be16 (be16At d 16) = d.drop 16 := by
    have hend : slice d 16 18 = d.drop 16 := by
      rw [← slice_append_drop d (i := 16) (j := 18) (by omega),
        List.drop_eq_nil_of_le (i := 18) (by omega), List.append_nil]
    rw [← hend, slice_eq_map_byteAt (n := 2) (by omega), be16_be16At]
    rfl
  rw [encode, ← hplen, ← hopc, encodePrefix_eq_slice (by omega),
    encodeIpPart_ipPartAt (by omega) hav, htail, List.append_assoc]
  simp [slice_append_drop]

theorem encode_of_decodeIcmphdr {d : List Byte} {i : Instr} (hopc : opcOf d = 0x03#8)
    (h : decodeIcmphdr d = .ok i) : encode i = d := by
  obtain ⟨hmod, hlen, rfl⟩ := decodeIcmphdr_eq_ok_iff.1 h
  have hpayload : (d.drop 10).length = plenOf d := by rw [List.length_drop]; omega
  rw [encode, hpayload, ← hopc, ← hmod, encodePrefix_eq_slice (by omega),
    encodeIcmpPart_icmpPartAt (by omega), List.append_assoc]
  simp [slice_append_drop]

theorem encode_of_decodeTcphdr {d : List Byte} {i : Instr} (hopc : opcOf d = 0x04#8)
    (h : decodeTcphdr d = .ok i) : encode i = d := by
  obtain ⟨hmod, hlen, hav, rfl⟩ := decodeTcphdr_eq_ok_iff.1 h
  have hpayload : (d.drop 28).length = plenOf d := by rw [List.length_drop]; omega
  rw [encode, hpayload, ← hopc, ← hmod, encodePrefix_eq_slice (by omega),
    encodeAddrPart_addrPartAt (by omega) hav, encodeTcpPart_tcpPartAt (by omega)]
  simp [slice_append_drop]

/-- Formats A1 and A6 lose no byte; format AX keeps `OPC`, `MOD` and its `IPPART`. -/
theorem encode_of_decodeAssemble {d : List Byte} {i : Instr} (hopc : opcOf d = 0x05#8)
    (h : decodeAssemble d = .ok i) :
    encode i = if unsupportedForm i then [0x05#8, byteAt d 1, 0x00#8, 0x00#8] ++ slice d 4 16 else d := by
  obtain ⟨hmin, hav, ⟨hmod, hlen, rfl⟩ | ⟨hmod, hlen, rfl⟩ | ⟨-, -, rfl⟩⟩ :=
    decodeAssemble_eq_ok_iff.1 h
  · have hpayload : (d.drop 22).length = plenOf d := by rw [List.length_drop]; omega
    rw [encode, hpayload, ← hopc, ← hmod, encodePrefix_eq_slice (by omega),
      encodeIpPart_ipPartAt (by omega) hav, encodeIcmpPart_icmpPartAt (by omega)]
    simp [slice_append_drop, unsupportedForm]
  · have hpayload : (d.drop 31).length = plenOf d := by rw [List.length_drop]; omega
    rw [encode, hpayload, ← hopc, ← hmod, encodePrefix_eq_slice (by omega),
      encodeIpPart_ipPartAt (by omega) hav, encodeTcpPart_tcpPartAt (by omega)]
    simp [slice_append_drop, unsupportedForm]
  · rw [encode, encodeIpPart_ipPartAt (by omega) hav]
    rfl

/-- Settles O2, by the format the decoder accepted: command word, operand parts and payload are consecutive substrings of
the descriptor. -/
theorem encodeDecode : Obligations.EncodeDecode := by
  unfold Obligations.EncodeDecode
  intro d i h
  obtain ⟨hmin, hopc, h⟩ | ⟨-, hopc, h⟩ | ⟨-, hopc, h⟩ | ⟨-, hopc, h⟩ | ⟨-, hopc, h⟩ :=
    decode_eq_ok_iff.1 h
  · obtain ⟨-, -, rfl⟩ := decodeCsum_eq_ok_iff.1 h
    exact encode_of_decodeCsum hmin hopc h
  · obtain ⟨-, -, -, rfl⟩ := decodeIp4hdr_eq_ok_iff.1 h
    exact encode_of_decodeIp4hdr hopc h
  · obtain ⟨-, -, rfl⟩ := decodeIcmphdr_eq_ok_iff.1 h
    exact encode_of_decodeIcmphdr hopc h
  · obtain ⟨-, -, -, rfl⟩ := decodeTcphdr_eq_ok_iff.1 h
    exact encode_of_decodeTcphdr hopc h
  · exact encode_of_decodeAssemble hopc h

/-- Settles O3, by the decoder's formats: each checks the length its payload reaches to, or the kind. -/
theorem decodeWellFormed : Obligations.DecodeWellFormed := by
  unfold Obligations.DecodeWellFormed
  exact fun _ _ h => decode_wellFormed h

/-- Settles O5: each descriptor is read by its format. -/
theorem exampleDescriptorsDecode : Obligations.ExampleDescriptorsDecode := by
  unfold Obligations.ExampleDescriptorsDecode
  decide

/-- Settles O7: the descriptor of the table word is the host's oldest interaction, so the step runs what it decodes
to and the interactions behind it are those of `s`. -/
theorem stepRunsTableWord : Obligations.StepRunsTableWord := by
  unfold Obligations.StepRunsTableWord
  intro s nbits w i h
  have hdecode : decode (tableDescriptor nbits w) = .ok i := by
    simp only [decodeTableWord] at h
    split at h
    · next hok => rwa [Option.some.inj h] at hok
    · cases h
  exact stepRunsDecoded _ _ _ i (withFetchWord_pending s nbits w) hdecode

end Sys2Proof.Proofs

/-! PROOFS. The wire formats (30_encoding.md R65 to R68, R72): a command that returns bytes leaves exactly them in
the latch, and each header and packet written out. -/

namespace Sys2Proof.Proofs

open Sys2Proof.Machine Sys2Proof.Laws

/-! ### A command that returns bytes -/

/-- Bytes the buffer can hold: the command completes and the host reads exactly them (10_state.md R15, R17). -/
theorem writeLatch_okBytes_holds {b : List Byte} (h : b.length ≤ 65575) (s : State) :
    ∃ t, writeLatch (.okBytes b) s = .next t ∧ HostUnchanged s t ∧ HoldsBytes t.res b :=
  ⟨_, writeLatch_okBytes h s, ⟨rfl, rfl⟩, rfl, rfl, outLen_toNat h, memory_read_fresh b⟩

/-- The same behind an address check with both verdicts good. -/
theorem withAddresses_okBytes_holds {av : AddrValid} {b : List Byte} (hsv : av.sv = true)
    (hdv : av.dv = true) (h : b.length ≤ 65575) (s : State) :
    ∃ t, withAddresses av s (writeLatch (.okBytes b) s) = .next t ∧ HostUnchanged s t
      ∧ HoldsBytes t.res b := by
  have hvalid : addrsValid av = true := by simp [addrsValid, hsv, hdv]
  rw [withAddresses_valid hvalid]
  exact writeLatch_okBytes_holds h s

/-! ### The headers written out -/

/-- The data offset 5 stands in the byte before the flags, which keep all their bits (30_encoding.md R71). -/
theorem be16_offsetFlags (flags : Byte) : be16 (offsetFlags flags) = [0x50#8, flags] := by
  have hjoin : offsetFlags flags = 0x50#8 ++ flags := by
    apply BitVec.eq_of_toNat_eq
    have hlt := flags.isLt
    rw [BitVec.toNat_append, ← Nat.shiftLeft_add_eq_or_of_lt hlt, Nat.shiftLeft_eq]
    simp only [offsetFlags, BitVec.toNat_add, BitVec.toNat_setWidth, BitVec.toNat_ofNat]
    omega
  obtain ⟨hhigh, hlow⟩ := append_split 0x50#8 flags
  rw [be16, hjoin, hhigh, hlow]

theorem ofNat_mod_eq_trunc16 (n : Nat) : BitVec.ofNat 16 (n % 65536) = trunc16 n := by
  apply BitVec.eq_of_toNat_eq
  simp [trunc16]

/-- The bytes a TCP checksum covers: the pseudo-header (30_encoding.md R68), the header with checksum 0 and the
payload. -/
theorem tcphdr_input_eq (p : TcpPart) (src dst : IPv4Addr) (payload : List Byte) :
    pseudo src dst (segmentLength payload) ++ tcphdr0 p ++ payload
      = [src.o0, src.o1, src.o2, src.o3, dst.o0, dst.o1, dst.o2, dst.o3, 0x00#8, 0x06#8]
        ++ be16 (BitVec.ofNat 16 ((20 + payload.length) % 65536))
        ++ be16 p.sport ++ be16 p.dport ++ be32 p.seqn ++ be32 p.ackn ++ [0x50#8, p.flags]
        ++ be16 p.win ++ [0x00#8, 0x00#8, 0x00#8, 0x00#8] ++ payload := by
  rw [ofNat_mod_eq_trunc16, pseudo, segmentLength, tcphdr0, be16_offsetFlags]
  simp [addrBytes]

theorem tcphdr_eq (p : TcpPart) (src dst : IPv4Addr) (payload : List Byte) :
    tcphdr p src dst payload
      = be16 p.sport ++ be16 p.dport ++ be32 p.seqn ++ be32 p.ackn ++ [0x50#8, p.flags] ++ be16 p.win
        ++ be16 (csum (pseudo src dst (segmentLength payload) ++ tcphdr0 p ++ payload))
        ++ [0x00#8, 0x00#8] := by
  rw [← be16_offsetFlags]
  rfl

/-- Settles O28: the header is the first pass with the checksum put at offset 10. -/
theorem ip4hdrResult : Obligations.Ip4hdrResult := by
  unfold Obligations.Ip4hdrResult
  intro proto ip tlen s hsv hdv
  exact withAddresses_okBytes_holds hsv hdv
    (by simp : (ip4hdr ip.src ip.dst proto tlen ip.ttl ip.ipid).length ≤ 65575) s

/-- Settles O31: the header is the first pass with the checksum put at offset 2. -/
theorem icmphdrResult : Obligations.IcmphdrResult := by
  unfold Obligations.IcmphdrResult
  intro icmp payload s
  exact writeLatch_okBytes_holds (by simp : (icmphdr icmp payload).length ≤ 65575) s

/-- Settles O33: the header is the first pass with the checksum put at offset 16, and the bytes summed are the
pseudo-header, that first pass and the payload. -/
theorem tcphdrResult : Obligations.TcphdrResult := by
  unfold Obligations.TcphdrResult
  intro addr tcp payload s hsv hdv
  rw [← tcphdr_input_eq, ← tcphdr_eq]
  exact withAddresses_okBytes_holds hsv hdv
    (by simp : (tcphdr tcp addr.src addr.dst payload).length ≤ 65575) s

/-! ### The packets written out -/

theorem totalLength_eq (inner : Nat) (payload : List Byte) :
    totalLength inner payload = BitVec.ofNat 16 ((20 + inner + payload.length) % 65536) :=
  (ofNat_mod_eq_trunc16 _).symm

/-- Settles O36: the packet's total length is that of its 8-byte inner header, and the longest payload fits
`OUT_BUF`. -/
theorem assembleIcmpResult : Obligations.AssembleIcmpResult := by
  unfold Obligations.AssembleIcmpResult
  intro ip icmp payload s hlen hsv hdv
  have hfits : (packet ip 0x01#8 (icmphdr icmp payload) payload).length ≤ 65575 := by
    rw [packet_length, icmphdr_length]
    omega
  rw [← totalLength_eq 8 payload]
  exact withAddresses_okBytes_holds hsv hdv hfits s

/-- Settles O37: as O36, with a 20-byte inner header. -/
theorem assembleTcpResult : Obligations.AssembleTcpResult := by
  unfold Obligations.AssembleTcpResult
  intro ip tcp payload s hlen hsv hdv
  have hfits : (packet ip 0x06#8 (tcphdr tcp ip.src ip.dst payload) payload).length ≤ 65575 := by
    rw [packet_length, tcphdr_length]
    omega
  rw [← totalLength_eq 20 payload]
  exact withAddresses_okBytes_holds hsv hdv hfits s

end Sys2Proof.Proofs

/-! PROOFS. Lines of the assembler (30_encoding.md R73 to R75): what a line that assembles has given, and address
literals. -/

namespace Sys2Proof.Proofs

open Sys2Proof.Machine Sys2Proof.Laws

/-! ### Operands of a line that assembles -/

/-- A sequence of operand reads succeeds exactly when its first read does and the rest does with its value. -/
theorem except_bind_eq_ok_iff {α β : Type} {x : Except AsmError α} {f : α → Except AsmError β} {r : β} :
    (x >>= f) = .ok r ↔ ∃ a, x = .ok a ∧ f a = .ok r := by
  cases x with
  | ok a => simp [bind, Except.bind]
  | error e => simp [bind, Except.bind]

theorem except_pure_eq_ok_iff {α : Type} {a r : α} :
    (pure a : Except AsmError α) = .ok r ↔ a = r := by
  simp [pure, Except.pure]

/-! ### Operands that are given -/

/-- Every one of the operands has a value on the line. -/
def Given (ops : Operands) (names : List String) : Prop :=
  ∀ n ∈ names, (operand ops n).isSome = true

theorem Given.append {ops : Operands} {xs ys : List String} (hx : Given ops xs) (hy : Given ops ys) :
    Given ops (xs ++ ys) :=
  List.forall_mem_append.2 ⟨hx, hy⟩

theorem Given.mono {ops : Operands} {xs ys : List String} (h : Given ops ys) (hsub : xs ⊆ ys) :
    Given ops xs :=
  fun n hn => h n (hsub hn)

/-- A required operand that is read is given, and its text parses. -/
theorem required_eq_ok {α : Type} {ops : Operands} {name : String} {parse : List Char → Option α}
    {x : α} (h : required ops name parse = .ok x) :
    ∃ v, operand ops name = some v ∧ parse v = some x := by
  simp only [required] at h
  split at h
  · cases h
  · next v hv =>
    split at h
    · next y hy => exact ⟨v, hv, by rw [hy, Except.ok.inj h]⟩
    · cases h

theorem given_of_required {α : Type} {ops : Operands} {name : String} {parse : List Char → Option α}
    {x : α} (h : required ops name parse = .ok x) : Given ops [name] := by
  obtain ⟨v, hv, -⟩ := required_eq_ok h
  simp [Given, hv]

theorem ttlOperand_default {ops : Operands} {ttl : Byte} (h : ttlOperand ops = .ok ttl)
    (hnone : operand ops "ttl" = none) : ttl = 255#8 := by
  simp only [ttlOperand, hnone, Except.ok.injEq] at h
  exact h.symm

theorem addrOperands_given {ops : Operands} {a : AddrPart} (h : addrOperands ops = .ok a) :
    Given ops ["src", "dst"] := by
  simp only [addrOperands, except_bind_eq_ok_iff] at h
  obtain ⟨_, hsrc, _, hdst, -⟩ := h
  exact (given_of_required hsrc).append (given_of_required hdst)

theorem ipOperands_given {ops : Operands} {ip : IpPart} (h : ipOperands ops = .ok ip) :
    Given ops ["src", "dst", "ipid"] ∧ (operand ops "ttl" = none → ip.ttl = 255#8) := by
  simp only [ipOperands, except_bind_eq_ok_iff, except_pure_eq_ok_iff] at h
  obtain ⟨_, haddr, _, httl, _, hipid, rfl⟩ := h
  exact ⟨(addrOperands_given haddr).append (given_of_required hipid), ttlOperand_default httl⟩

theorem icmpOperands_given {ops : Operands} {p : IcmpPart} (h : icmpOperands ops = .ok p) :
    Given ops ["type", "code", "id", "seq"] := by
  simp only [icmpOperands, except_bind_eq_ok_iff] at h
  obtain ⟨_, htype, _, hcode, _, hid, _, hseq, -⟩ := h
  exact (given_of_required htype).append ((given_of_required hcode).append
    ((given_of_required hid).append (given_of_required hseq)))

theorem tcpOperands_given {ops : Operands} {p : TcpPart} (h : tcpOperands ops = .ok p) :
    Given ops ["sport", "dport", "seq", "ack", "flags", "win"] := by
  simp only [tcpOperands, except_bind_eq_ok_iff] at h
  obtain ⟨_, hsport, _, hdport, _, hseq, _, hack, _, hflags, _, hwin, -⟩ := h
  exact (given_of_required hsport).append ((given_of_required hdport).append
    ((given_of_required hseq).append ((given_of_required hack).append
      ((given_of_required hflags).append (given_of_required hwin)))))

/-! ### What each operation reads -/

theorem asmCsum_eq_ok {ops : Operands} {i : Instr} (h : asmCsum ops = .ok i) :
    ∃ buf, required ops "buf" bytesValue = .ok buf ∧ i = .csum buf := by
  simp only [asmCsum, except_bind_eq_ok_iff, except_pure_eq_ok_iff] at h
  obtain ⟨_, -, buf, hbuf, rfl⟩ := h
  exact ⟨buf, hbuf, rfl⟩

theorem asmIp4hdr_eq_ok {ops : Operands} {i : Instr} (h : asmIp4hdr ops = .ok i) :
    ∃ ip proto tlen, ipOperands ops = .ok ip ∧ required ops "proto" (numberW 8) = .ok proto
      ∧ required ops "total_length" (numberW 16) = .ok tlen ∧ i = .ip4hdr proto ip tlen := by
  simp only [asmIp4hdr, except_bind_eq_ok_iff, except_pure_eq_ok_iff] at h
  obtain ⟨_, -, ip, hip, proto, hproto, tlen, htlen, rfl⟩ := h
  exact ⟨ip, proto, tlen, hip, hproto, htlen, rfl⟩

theorem asmIcmphdr_eq_ok {ops : Operands} {i : Instr} (h : asmIcmphdr ops = .ok i) :
    ∃ icmp payload, icmpOperands ops = .ok icmp ∧ required ops "payload" bytesValue = .ok payload
      ∧ i = .icmphdr icmp payload := by
  simp only [asmIcmphdr, except_bind_eq_ok_iff, except_pure_eq_ok_iff] at h
  obtain ⟨_, -, icmp, hicmp, payload, hpayload, rfl⟩ := h
  exact ⟨icmp, payload, hicmp, hpayload, rfl⟩

theorem asmTcphdr_eq_ok {ops : Operands} {i : Instr} (h : asmTcphdr ops = .ok i) :
    ∃ tcp addr payload, tcpOperands ops = .ok tcp ∧ addrOperands ops = .ok addr
      ∧ required ops "payload" bytesValue = .ok payload ∧ i = .tcphdr addr tcp payload := by
  simp only [asmTcphdr, except_bind_eq_ok_iff, except_pure_eq_ok_iff] at h
  obtain ⟨_, -, tcp, htcp, addr, haddr, payload, hpayload, rfl⟩ := h
  exact ⟨tcp, addr, payload, htcp, haddr, hpayload, rfl⟩

/-- `ASSEMBLE` reads its kind, the IPv4 operands and then what the kind's `MOD` value asks for. -/
theorem asmAssemble_eq_ok {ops : Operands} {i : Instr} (h : asmAssemble ops = .ok i) :
    ∃ kind ip, required ops "kind" kindValue = .ok kind ∧ ipOperands ops = .ok ip
      ∧ ((∃ icmp payload, icmpOperands ops = .ok icmp
            ∧ required ops "payload" bytesValue = .ok payload ∧ i = .assembleIcmp ip icmp payload)
        ∨ (∃ tcp payload, tcpOperands ops = .ok tcp
            ∧ required ops "payload" bytesValue = .ok payload ∧ i = .assembleTcp ip tcp payload)
        ∨ (kind ≠ 0x01#8 ∧ kind ≠ 0x06#8 ∧ i = .assembleUnsupported kind ip)) := by
  simp only [asmAssemble, except_bind_eq_ok_iff] at h
  obtain ⟨kind, hkind, h⟩ := h
  split_ifs at h with hicmp htcp <;>
    simp only [except_bind_eq_ok_iff, except_pure_eq_ok_iff] at h
  · obtain ⟨_, -, ip, hip, icmp, hpart, payload, hpayload, rfl⟩ := h
    exact ⟨kind, ip, hkind, hip, .inl ⟨icmp, payload, hpart, hpayload, rfl⟩⟩
  · obtain ⟨_, -, ip, hip, tcp, hpart, payload, hpayload, rfl⟩ := h
    exact ⟨kind, ip, hkind, hip, .inr (.inl ⟨tcp, payload, hpart, hpayload, rfl⟩)⟩
  · obtain ⟨_, -, ip, hip, rfl⟩ := h
    exact ⟨kind, ip, hkind, hip, .inr (.inr ⟨hicmp, htcp, rfl⟩)⟩

theorem asmCommand_cases {op : List Char} {ops : Operands} {i : Instr}
    (h : asmCommand op ops = .ok i) :
    asmCsum ops = .ok i ∨ asmIp4hdr ops = .ok i ∨ asmIcmphdr ops = .ok i ∨ asmTcphdr ops = .ok i
      ∨ asmAssemble ops = .ok i := by
  simp only [asmCommand] at h
  split_ifs at h <;> simp [h]

/-- Settles O56, by the operation: each reads every operand it must be given, and `ttl` where it is omitted as
255. -/
theorem asmDefaults : Obligations.AsmDefaults := by
  unfold Obligations.AsmDefaults
  intro op ops i h
  change _ ∧ Given ops (mandatoryOperands i)
  obtain h | h | h | h | h := asmCommand_cases h
  · obtain ⟨buf, hbuf, rfl⟩ := asmCsum_eq_ok h
    exact ⟨fun _ => .inl rfl, given_of_required hbuf⟩
  · obtain ⟨ip, proto, tlen, hip, hproto, htlen, rfl⟩ := asmIp4hdr_eq_ok h
    obtain ⟨hgiven, httl⟩ := ipOperands_given hip
    have hall := hgiven.append ((given_of_required hproto).append (given_of_required htlen))
    exact ⟨fun hnone => .inr (congrArg some (httl hnone)), hall.mono (by simp [mandatoryOperands])⟩
  · obtain ⟨icmp, payload, hicmp, hpayload, rfl⟩ := asmIcmphdr_eq_ok h
    exact ⟨fun _ => .inl rfl, (icmpOperands_given hicmp).append (given_of_required hpayload)⟩
  · obtain ⟨tcp, addr, payload, htcp, haddr, hpayload, rfl⟩ := asmTcphdr_eq_ok h
    exact ⟨fun _ => .inl rfl, (tcpOperands_given htcp).append
      ((addrOperands_given haddr).append (given_of_required hpayload))⟩
  · obtain ⟨kind, ip, hkind, hip, hform⟩ := asmAssemble_eq_ok h
    obtain ⟨hgiven, httl⟩ := ipOperands_given hip
    have hcommon := (given_of_required hkind).append hgiven
    obtain ⟨icmp, payload, hicmp, hpayload, rfl⟩ | ⟨tcp, payload, htcp, hpayload, rfl⟩
      | ⟨-, -, rfl⟩ := hform
    · exact ⟨fun hnone => .inr (congrArg some (httl hnone)), hcommon.append
        ((icmpOperands_given hicmp).append (given_of_required hpayload))⟩
    · exact ⟨fun hnone => .inr (congrArg some (httl hnone)), hcommon.append
        ((tcpOperands_given htcp).append (given_of_required hpayload))⟩
    · exact ⟨fun hnone => .inr (congrArg some (httl hnone)), hcommon⟩

/-! ### The payload fits -/

/-- A byte string the assembler reads fits `PLEN` (30_encoding.md R73). -/
theorem bytesValue_length_le {cs : List Char} {b : List Byte} (h : bytesValue cs = some b) :
    b.length ≤ 65535 := by
  simp only [bytesValue] at h
  split at h
  · split at h
    · next hle => exact Option.some.inj h ▸ hle
    · cases h
  · cases h

theorem length_le_of_required_bytes {ops : Operands} {name : String} {b : List Byte}
    (h : required ops name bytesValue = .ok b) : b.length ≤ 65535 := by
  obtain ⟨v, -, hb⟩ := required_eq_ok h
  exact bytesValue_length_le hb

theorem asmCommand_wellFormed {op : List Char} {ops : Operands} {i : Instr}
    (h : asmCommand op ops = .ok i) : i.WellFormed := by
  obtain h | h | h | h | h := asmCommand_cases h
  · obtain ⟨buf, hbuf, rfl⟩ := asmCsum_eq_ok h
    exact (wf_csum _).2 (length_le_of_required_bytes hbuf)
  · obtain ⟨ip, proto, tlen, -, -, -, rfl⟩ := asmIp4hdr_eq_ok h
    exact wf_ip4hdr _ _ _
  · obtain ⟨icmp, payload, -, hpayload, rfl⟩ := asmIcmphdr_eq_ok h
    exact (wf_icmphdr _ _).2 (length_le_of_required_bytes hpayload)
  · obtain ⟨tcp, addr, payload, -, -, hpayload, rfl⟩ := asmTcphdr_eq_ok h
    exact (wf_tcphdr _ _ _).2 (length_le_of_required_bytes hpayload)
  · obtain ⟨kind, ip, -, -, ⟨icmp, payload, -, hpayload, rfl⟩ | ⟨tcp, payload, -, hpayload, rfl⟩
      | ⟨hicmp, htcp, rfl⟩⟩ := asmAssemble_eq_ok h
    · exact (wf_assembleIcmp _ _ _).2 (length_le_of_required_bytes hpayload)
    · exact (wf_assembleTcp _ _ _).2 (length_le_of_required_bytes hpayload)
    · exact (wf_assembleUnsupported _ _).2 ⟨hicmp, htcp⟩

/-- A line gives a command only through its operation name and operands. -/
theorem asmLine_eq_some {line : List Char} {i : Instr} (h : asmLine line = .ok (some i)) :
    ∃ op ops, asmCommand op ops = .ok i := by
  simp only [asmLine] at h
  split at h
  · cases h
  · cases h
  · next op rest _ =>
    split at h
    · cases h
    · next ops _ =>
      split at h
      · next j hj => cases h; exact ⟨op, ops, hj⟩
      · cases h

/-- Settles O55: the line's command is one the assembler built from its operands. -/
theorem asmWellFormed : Obligations.AsmWellFormed := by
  unfold Obligations.AsmWellFormed
  intro line i h
  obtain ⟨op, ops, hcommand⟩ := asmLine_eq_some h
  exact asmCommand_wellFormed hcommand

end Sys2Proof.Proofs

/-! PROOFS. Address literals (30_encoding.md R75): how a text is cut at its dots, and octets in decimal. -/

namespace Sys2Proof.Proofs

open Sys2Proof.Machine Sys2Proof.Laws

/-! ### A text cut at its separators -/

/-- A text always has a first piece. -/
theorem splitChars_ne_nil (p : Char → Bool) (cs : List Char) : splitChars p cs ≠ [] := by
  cases cs with
  | nil => simp [splitChars]
  | cons c rest =>
    simp only [splitChars]
    split
    · simp
    · split <;> simp

theorem splitChars_cons_sep {p : Char → Bool} {c : Char} (hc : p c = true) (rest : List Char) :
    splitChars p (c :: rest) = [] :: splitChars p rest := by
  simp [splitChars, hc]

/-- A character that separates nothing goes to the first piece of what follows it. -/
theorem splitChars_cons_of_eq {p : Char → Bool} {c : Char} (hc : p c = false) {rest w : List Char}
    {ws : List (List Char)} (h : splitChars p rest = w :: ws) :
    splitChars p (c :: rest) = (c :: w) :: ws := by
  simp [splitChars, hc, h]

theorem splitChars_no_sep {p : Char → Bool} {w : List Char} (h : ∀ c ∈ w, p c = false) :
    splitChars p w = [w] := by
  induction w with
  | nil => rfl
  | cons c rest ih =>
    obtain ⟨hc, hrest⟩ := List.forall_mem_cons.1 h
    exact splitChars_cons_of_eq hc (ih hrest)

theorem splitChars_append_sep {p : Char → Bool} {w : List Char} {s : Char} (h : ∀ c ∈ w, p c = false)
    (hs : p s = true) (rest : List Char) :
    splitChars p (w ++ s :: rest) = w :: splitChars p rest := by
  induction w with
  | nil => exact splitChars_cons_sep hs rest
  | cons c w ih =>
    obtain ⟨hc, hw⟩ := List.forall_mem_cons.1 h
    exact splitChars_cons_of_eq hc (ih hw)

/-- The first piece of a text is the whole text, or a separator ends it and the others are the pieces of the
rest. -/
theorem splitChars_eq_cons {p : Char → Bool} {cs w : List Char} {ws : List (List Char)}
    (h : splitChars p cs = w :: ws) :
    (cs = w ∧ ws = []) ∨ ∃ s rest, cs = w ++ s :: rest ∧ p s = true ∧ splitChars p rest = ws := by
  induction cs generalizing w with
  | nil =>
    cases h
    exact .inl ⟨rfl, rfl⟩
  | cons c rest ih =>
    cases hc : p c with
    | true =>
      rw [splitChars_cons_sep hc] at h
      cases h
      exact .inr ⟨c, rest, rfl, hc, rfl⟩
    | false =>
      obtain ⟨w', ws', hrest⟩ := List.exists_cons_of_ne_nil (splitChars_ne_nil p rest)
      rw [splitChars_cons_of_eq hc hrest] at h
      cases h
      obtain ⟨rfl, hws⟩ | ⟨s, tail, rfl, hs, htail⟩ := ih hrest
      · exact .inl ⟨rfl, hws⟩
      · exact .inr ⟨s, tail, rfl, hs, htail⟩

/-- The dot of an address literal. -/
abbrev isDot (c : Char) : Bool := c == '.'

theorem splitDots_append {w : List Char} (h : ∀ c ∈ w, isDot c = false) (rest : List Char) :
    splitChars isDot (w ++ '.' :: rest) = w :: splitChars isDot rest :=
  splitChars_append_sep h rfl rest

theorem splitDots_cons_cons {cs w x : List Char} {ws : List (List Char)}
    (h : splitChars isDot cs = w :: x :: ws) :
    ∃ rest, cs = w ++ '.' :: rest ∧ splitChars isDot rest = x :: ws := by
  obtain ⟨-, hnil⟩ | ⟨s, rest, rfl, hs, hrest⟩ := splitChars_eq_cons h
  · cases hnil
  · exact ⟨rest, by rw [eq_of_beq hs], hrest⟩

theorem splitDots_singleton {cs w : List Char} (h : splitChars isDot cs = [w]) : cs = w := by
  obtain ⟨hcs, -⟩ | ⟨s, rest, -, -, hrest⟩ := splitChars_eq_cons h
  · exact hcs
  · exact absurd hrest (splitChars_ne_nil _ _)

/-! ### Octets in decimal -/

theorem digitChar_toNat {d : Nat} (h : d < 10) : (digitChar d).toNat = 48 + d := by
  interval_cases d <;> rfl

theorem decDigit_digitChar {d : Nat} (h : d < 10) : decDigit (digitChar d) = some d := by
  rw [decDigit, digitChar_toNat h, if_pos (by omega), Nat.add_sub_cancel_left]

theorem digitChar_not_dot {d : Nat} (h : d < 10) : isDot (digitChar d) = false := by
  interval_cases d <;> rfl

/-- An octet in decimal, by its number of digits, spells the octet's value. -/
theorem decNumber_decimalOctet (b : Byte) : decNumber (decimalOctet b) = some b.toNat := by
  have hlt := b.isLt
  simp only [decimalOctet]
  split_ifs with hone htwo
  · simp [decNumber, digitsFrom, decDigit_digitChar hone]
  · have h₁ : b.toNat / 10 < 10 := by omega
    have h₀ : b.toNat % 10 < 10 := by omega
    simp only [decNumber, digitsFrom, decDigit_digitChar h₁, decDigit_digitChar h₀, Option.some.injEq]
    omega
  · have h₂ : b.toNat / 100 < 10 := by omega
    have h₁ : b.toNat / 10 % 10 < 10 := by omega
    have h₀ : b.toNat % 10 < 10 := by omega
    simp only [decNumber, digitsFrom, decDigit_digitChar h₂, decDigit_digitChar h₁,
      decDigit_digitChar h₀, Option.some.injEq]
    omega

theorem octet_decimalOctet (b : Byte) : octet (decimalOctet b) = some b := by
  have hle : b.toNat ≤ 255 := by have := b.isLt; omega
  simp [octet, decNumber_decimalOctet, hle]

theorem decimalOctet_no_dot (b : Byte) : ∀ c ∈ decimalOctet b, isDot c = false := by
  have hlt := b.isLt
  have hdigit : ∀ d < 10, isDot (digitChar d) = false := fun d h => digitChar_not_dot h
  simp only [decimalOctet]
  split_ifs with hone htwo <;>
    simp only [List.forall_mem_cons, List.not_mem_nil, false_imp_iff, implies_true, and_true]
  · exact hdigit _ hone
  · exact ⟨hdigit _ (by omega), hdigit _ (by omega)⟩
  · exact ⟨hdigit _ (by omega), hdigit _ (by omega), hdigit _ (by omega)⟩

/-! ### Literals -/

theorem addrLiteral_of_octets {cs : List Char} {a b c d : Byte}
    (h : (splitChars isDot cs).map octet = [some a, some b, some c, some d]) :
    addrLiteral cs = (true, { o0 := a, o1 := b, o2 := c, o3 := d }) := by
  simp only [addrLiteral, h]

/-- A literal is good when its pieces are exactly four octets, and a bad one comes with bytes of zero. -/
theorem addrLiteral_cases (cs : List Char) :
    (∃ a b c d, (splitChars isDot cs).map octet = [some a, some b, some c, some d]
      ∧ addrLiteral cs = (true, { o0 := a, o1 := b, o2 := c, o3 := d }))
    ∨ addrLiteral cs = (false, { o0 := 0#8, o1 := 0#8, o2 := 0#8, o3 := 0#8 }) := by
  simp only [addrLiteral]
  split
  · next a b c d h => exact .inl ⟨a, b, c, d, h, rfl⟩
  · exact .inr rfl

/-- Settles O57: octets in decimal hold no dot, so a literal's pieces are its octets; and four pieces were
separated by three dots. -/
theorem addressLiteral : Obligations.AddressLiteral := by
  unfold Obligations.AddressLiteral
  refine ⟨fun a b c d => addrLiteral_of_octets ?_, fun cs => ?_⟩
  · simp only [List.append_assoc, List.cons_append]
    rw [splitDots_append (decimalOctet_no_dot a), splitDots_append (decimalOctet_no_dot b),
      splitDots_append (decimalOctet_no_dot c), splitChars_no_sep (decimalOctet_no_dot d)]
    simp [octet_decimalOctet]
  · obtain ⟨a, b, c, d, hpieces, hlit⟩ | hlit := addrLiteral_cases cs
    · rw [hlit, if_pos rfl]
      simp only [List.map_eq_cons_iff, List.map_eq_nil_iff] at hpieces
      obtain ⟨w, _, hw, ha, x, _, rfl, hb, y, _, rfl, hc, z, _, rfl, hd, rfl⟩ := hpieces
      obtain ⟨_, rfl, hx⟩ := splitDots_cons_cons hw
      obtain ⟨_, rfl, hy⟩ := splitDots_cons_cons hx
      obtain ⟨_, rfl, hz⟩ := splitDots_cons_cons hy
      exact ⟨w, x, y, z, by simp [splitDots_singleton hz], ha, hb, hc, hd⟩
    · rw [hlit]
      rfl

end Sys2Proof.Proofs

/-! PROOFS. The checksum (40_checksum.md): the word sum by whole words, the fold in closed form, the checksum at its
extremes and with its own field filled in; and the obligations of the family assembled from them. -/

namespace Sys2Proof.Proofs

open Sys2Proof.Machine Sys2Proof.Laws

/-! ### The word sum -/

/-- The words of a string, by offset; a last byte without a partner makes no word. -/
theorem words_sum_eq (b : List Byte) :
    (words b).sum = ∑ k ∈ Finset.range (b.length / 2),
      ((byteAt b (2 * k)).toNat * 256 + (byteAt b (2 * k + 1)).toNat) := by
  induction b using List.twoStepInduction with
  | nil => simp
  | singleton x => simp [words]
  | cons_cons hi lo l ih _ =>
    have hlen : (hi :: lo :: l).length / 2 = l.length / 2 + 1 := Nat.add_div_right l.length two_pos
    rw [hlen, Finset.sum_range_succ', words_cons_cons, List.sum_cons, ih, Nat.add_comm]
    rfl

/-- Settles O12: the words of the padded string, by offset. -/
theorem wordSum : Obligations.WordSum := by
  unfold Obligations.WordSum
  exact ⟨fun b => ⟨words_sum_eq (pad b), rfl⟩, wsum_nil, wsum_singleton 0x01#8⟩

/-- Words of a string before an even boundary are summed apart from those after it. -/
theorem wsum_append {a : List Byte} (ha : a.length % 2 = 0) (b : List Byte) :
    wsum (a ++ b) = wsum a + wsum b := by
  induction a using List.twoStepInduction with
  | nil => simp
  | singleton x => simp at ha
  | cons_cons hi lo l ih _ =>
    have hl : l.length % 2 = 0 := by simpa [Nat.add_assoc] using ha
    simp [ih hl, Nat.add_assoc]

/-- Settles O21: additive at every even boundary; `01` then `01` are two words apart and one together. -/
theorem evenBoundaryAdditivity : Obligations.EvenBoundaryAdditivity := by
  unfold Obligations.EvenBoundaryAdditivity
  exact ⟨fun a b ha => wsum_append ha b, [0x01#8], [0x01#8], rfl, by decide⟩

/-- A trailing zero byte is the pad byte itself or a word of value 0 (40_checksum.md R89 law 5). -/
theorem wsum_append_zero (b : List Byte) : wsum (b ++ [0x00#8]) = wsum b := by
  induction b using List.twoStepInduction with
  | nil => simp
  | singleton x => simp
  | cons_cons hi lo l ih _ => simp [ih]

theorem wsum_of_even_length {b : List Byte} (h : b.length % 2 = 0) : wsum b = (words b).sum := by
  rw [wsum, pad, if_pos h]

/-- The sum is 0 only when there is nothing but zeros to add. -/
theorem wsum_eq_zero_iff (b : List Byte) : wsum b = 0 ↔ ∀ x ∈ b, x = 0x00#8 := by
  have hbyte : ∀ x : Byte, x.toNat = 0 ↔ x = 0x00#8 := fun x => by
    rw [← BitVec.toNat_inj]
    rfl
  induction b using List.twoStepInduction with
  | nil => simp
  | singleton x => simp [hbyte]
  | cons_cons hi lo l ih _ => simp [hbyte, ih, and_assoc]

/-- Every word fits 16 bits. -/
theorem words_le {b : List Byte} {w : Nat} (h : w ∈ words b) : w ≤ 0xFFFF := by
  induction b using List.twoStepInduction with
  | nil => simp at h
  | singleton x => simp [words] at h
  | cons_cons hi lo l ih _ =>
    rcases List.mem_cons.1 h with rfl | h
    · have hhi := hi.isLt
      have hlo := lo.isLt
      omega
    · exact ih h

/-- The largest sum of a string of a given length: all of its words `FF FF` (40_checksum.md R86). -/
theorem wsum_le (b : List Byte) : wsum b ≤ (b.length + 1) / 2 * 65535 := by
  induction b using List.twoStepInduction with
  | nil => simp
  | singleton x =>
    have hx := x.isLt
    rw [wsum_singleton, List.length_singleton]
    omega
  | cons_cons hi lo l ih _ =>
    have hhi := hi.isLt
    have hlo := lo.isLt
    rw [wsum_cons_cons, List.length_cons, List.length_cons]
    omega

/-- The length of what a TCP checksum covers: pseudo-header, header and payload. -/
theorem tcphdr_input_length (p : TcpPart) (src dst : IPv4Addr) (payload : List Byte) :
    (pseudo src dst (segmentLength payload) ++ tcphdr0 p ++ payload).length = 32 + payload.length := by
  rw [List.length_append, List.length_append, pseudo_length, tcphdr0_length]

/-- Settles O25: 65537 words reach `0xFFFFFFFF`, and a full TCP input has 32784 words. -/
theorem accumulatorWidth : Obligations.AccumulatorWidth := by
  unfold Obligations.AccumulatorWidth
  refine ⟨fun b hlen => ?_, fun p src dst payload hlen => ?_⟩
  · have hsum := wsum_le b
    omega
  · have hlength := tcphdr_input_length p src dst payload
    have hsum := wsum_le (pseudo src dst (segmentLength payload) ++ tcphdr0 p ++ payload)
    omega

/-! ### The fold -/

theorem foldPass_lt {s : Nat} (h : 0xFFFF < s) : foldPass s < s := by
  rw [foldPass_eq]
  omega

/-- A pass keeps what the closed form depends on: a positive sum stays positive, with the same residue modulo 65535
(40_checksum.md R85). -/
theorem foldPass_residue {s : Nat} (h : 0 < s) :
    0 < foldPass s ∧ (foldPass s - 1) % 65535 = (s - 1) % 65535 := by
  rw [foldPass_eq]
  omega

/-- The loop's result in closed form, by the passes: each keeps the residue, and the value they stop at is the only
one in 1 to 65535 that has it. -/
theorem foldLoop_eq {fuel s : Nat} (hpos : 0 < s) (hfuel : s ≤ fuel) :
    foldLoop fuel s = (s - 1) % 65535 + 1 := by
  induction fuel generalizing s with
  | zero => omega
  | succ n ih =>
    rw [foldLoop_succ]
    split
    case isTrue hle => omega
    case isFalse hgt =>
      have hlt := foldPass_lt (not_le.1 hgt)
      obtain ⟨hpass, hresidue⟩ := foldPass_residue hpos
      rw [ih hpass (by omega), hresidue]

@[simp] theorem fold_zero : fold 0 = 0 := rfl

theorem fold_eq {s : Nat} (h : 0 < s) : fold s = (s - 1) % 65535 + 1 := foldLoop_eq h le_rfl

/-- What the closed form says of every sum, 0 included; these three determine the fold. -/
theorem fold_spec (s : Nat) :
    fold s ≤ 0xFFFF ∧ (fold s = 0 ↔ s = 0) ∧ fold s % 65535 = s % 65535 := by
  rcases s.eq_zero_or_pos with rfl | h
  · simp
  · rw [fold_eq h]
    omega

theorem fold_le (s : Nat) : fold s ≤ 0xFFFF := (fold_spec s).1

theorem fold_eq_zero_iff (s : Nat) : fold s = 0 ↔ s = 0 := (fold_spec s).2.1

theorem fold_eq_max_iff (s : Nat) : fold s = 0xFFFF ↔ 0 < s ∧ 65535 ∣ s := by
  obtain ⟨hfit, hzero, hmod⟩ := fold_spec s
  omega

/-- Settles O16: the closed form of the loop, and what it says of the extremes. -/
theorem foldClosedForm : Obligations.FoldClosedForm := by
  unfold Obligations.FoldClosedForm
  refine ⟨fold_zero, fun s h => ⟨fold_eq h, fold_le s, ?_, ?_, (fold_spec s).2.2⟩⟩
  · rw [ne_eq, fold_eq_zero_iff]
    exact h.ne'
  · rw [fold_eq_max_iff, and_iff_right h]

/-- The fold stops at 16 bits. -/
theorem fold_of_le {s : Nat} (h : s ≤ 0xFFFF) : fold s = s := by
  obtain ⟨hfit, hzero, hmod⟩ := fold_spec s
  omega

/-- A pass does not change what a positive sum folds to. -/
theorem fold_foldPass {s : Nat} (h : 0 < s) : fold (foldPass s) = fold s := by
  obtain ⟨hpass, hresidue⟩ := foldPass_residue h
  rw [fold_eq hpass, fold_eq h, hresidue]

/-- Settles O13: the fold stops at 16 bits, and a pass changes neither side. -/
theorem foldEquation : Obligations.FoldEquation := by
  unfold Obligations.FoldEquation
  refine ⟨fun s => ?_, fun s h => foldPass_eq s ▸ foldPass_lt h, fold_eq (by norm_num)⟩
  split
  case isTrue hle => exact fold_of_le hle
  case isFalse hgt => rw [← foldPass_eq, fold_foldPass (by omega)]

/-- Settles O17: a sum below `2^32` has at most 17 bits after one pass, and one carry at most to fold in again. -/
theorem foldTwoPasses : Obligations.FoldTwoPasses := by
  unfold Obligations.FoldTwoPasses
  intro s hs
  have hone : foldPass s ≤ 0x1FFFE := by rw [foldPass_eq]; omega
  have htwo : foldPass (foldPass s) ≤ 0xFFFF := by rw [foldPass_eq]; omega
  refine ⟨hone, htwo, ?_⟩
  split_ifs with hzero hpass
  · exact fold_of_le hzero
  · rw [← fold_foldPass (by omega), fold_of_le hpass]
  · rw [← fold_foldPass (by omega), ← fold_foldPass (by omega), fold_of_le htwo]

/-! ### The checksum of a sum -/

/-- Settles O14: the model's complement is bitwise `not`, which is subtraction from all ones. -/
theorem complement : Obligations.Complement := by
  unfold Obligations.Complement
  refine fun f => ⟨BitVec.toNat_not, fun k hk => ?_⟩
  rw [complement16, BitVec.getLsbD_not, decide_eq_true hk, Bool.true_and]

theorem csum_toNat (b : List Byte) : (csum b).toNat = 0xFFFF - fold (wsum b) := by
  have hfit : fold (wsum b) < 2 ^ 16 := Nat.lt_succ_of_le (fold_le _)
  rw [csum, (complement _).1, BitVec.toNat_ofNat, Nat.mod_eq_of_lt hfit]

/-- Settles O15: the folded sum fits 16 bits, so turning it into a `u16` keeps its value. -/
theorem checksumFormula : Obligations.ChecksumFormula := by
  unfold Obligations.ChecksumFormula
  exact fun b => ⟨fold_le _, csum_toNat b⟩

/-- A checksum depends on the word sum alone. -/
theorem csum_congr {a b : List Byte} (h : wsum a = wsum b) : csum a = csum b := by
  rw [csum, csum, h]

theorem csum_eq_ones_iff (b : List Byte) : csum b = 0xFFFF#16 ↔ wsum b = 0 := by
  rw [← BitVec.toNat_inj, csum_toNat, ← fold_eq_zero_iff, BitVec.toNat_ofNat]
  have hfit := fold_le (wsum b)
  omega

theorem csum_eq_zero_iff (b : List Byte) : csum b = 0x0000#16 ↔ 0 < wsum b ∧ 65535 ∣ wsum b := by
  rw [← BitVec.toNat_inj, csum_toNat, ← fold_eq_max_iff, BitVec.toNat_ofNat]
  have hfit := fold_le (wsum b)
  omega

/-- Settles O19: the fold is 0 only of the sum 0, and `0xFFFF` only of positive multiples of 65535. -/
theorem checksumExtremes : Obligations.ChecksumExtremes := by
  unfold Obligations.ChecksumExtremes
  exact fun b => ⟨(csum_eq_ones_iff b).trans (wsum_eq_zero_iff b), csum_eq_zero_iff b⟩

/-- Settles O20: the word sum does not see the zero bytes. -/
theorem trailingZeroInvariance : Obligations.TrailingZeroInvariance := by
  unfold Obligations.TrailingZeroInvariance
  refine fun b => ⟨csum_congr (wsum_append_zero b), csum_congr ?_⟩
  rw [List.append_cons, wsum_append_zero, wsum_append_zero]

/-- Settles O22: the word sum does not see the order of the words; `00 01` and `01 00` are different words. -/
theorem wordOrder : Obligations.WordOrder := by
  unfold Obligations.WordOrder
  refine ⟨fun a b ha hb hperm => csum_congr ?_, 0x00#8, 0x01#8, by decide⟩
  rw [wsum_of_even_length ha, wsum_of_even_length hb, hperm.sum_eq]

theorem wsum_replicate_ones (n : Nat) : wsum (List.replicate (2 * n) 0xFF#8) = n * 0xFFFF := by
  induction n with
  | zero => rfl
  | succ n ih =>
    rw [Nat.mul_succ, List.replicate_succ, List.replicate_succ, wsum_cons_cons, ih, BitVec.toNat_ofNat]
    omega

/-- Settles O24: the sum is a positive multiple of 65535. -/
theorem allOnesWords : Obligations.AllOnesWords := by
  unfold Obligations.AllOnesWords
  intro n hn
  have hmultiple : 0 < n * 0xFFFF ∧ 65535 ∣ n * 0xFFFF := ⟨by omega, Nat.dvd_mul_left _ n⟩
  refine ⟨wsum_replicate_ones n, (fold_eq_max_iff _).2 hmultiple, ?_⟩
  rwa [csum_eq_zero_iff, wsum_replicate_ones]

/-! ### The 16-bit adder -/

/-- One word into the adder is one word into the sum: a carry out of 16 bits is worth 65536, which leaves the residue
modulo 65535 and comes back as 1 (40_checksum.md R87). -/
theorem adderStep_fold (s : Nat) {w : Nat} (hw : w ≤ 0xFFFF) : adderStep (fold s) w = fold (s + w) := by
  rcases s.eq_zero_or_pos with rfl | hs
  · simp [adderStep, not_lt.2 hw, fold_of_le hw]
  · have hand : (fold s + w) &&& 0xFFFF = (fold s + w) % 65536 := Nat.and_two_pow_sub_one_eq_mod _ 16
    rw [adderStep, hand, fold_eq hs, fold_eq (Nat.add_pos_left hs w)]
    split <;> omega

theorem foldl_adderStep_fold {ws : List Nat} (hws : ∀ w ∈ ws, w ≤ 0xFFFF) (s : Nat) :
    ws.foldl adderStep (fold s) = fold (s + ws.sum) := by
  induction ws generalizing s with
  | nil => simp
  | cons w ws ih =>
    obtain ⟨hw, hrest⟩ := List.forall_mem_cons.1 hws
    rw [List.foldl_cons, adderStep_fold s hw, ih hrest, List.sum_cons, Nat.add_assoc]

theorem adderAcc_eq_fold_sum {ws : List Nat} (hws : ∀ w ∈ ws, w ≤ 0xFFFF) :
    adderAcc ws = fold ws.sum := by
  rw [← Nat.zero_add ws.sum]
  exact foldl_adderStep_fold hws 0

theorem adderCsum_eq_csum (b : List Byte) : adderCsum b = csum b := by
  apply BitVec.eq_of_toNat_eq
  rw [csum_toNat, adderCsum, adderAcc_eq_fold_sum fun _ => words_le, BitVec.toNat_ofNat, wsum]
  omega

/-- Settles O18: after any words the accumulator is the fold of their sum, which is 0 only when each of them is. -/
theorem endAroundCarryAdder : Obligations.EndAroundCarryAdder := by
  unfold Obligations.EndAroundCarryAdder
  intro b
  have hacc : ∀ n, adderAcc ((words (pad b)).take n) = fold ((words (pad b)).take n).sum :=
    fun n => adderAcc_eq_fold_sum fun _ hw => words_le (List.mem_of_mem_take hw)
  refine ⟨hacc, ?_, adderCsum_eq_csum b⟩
  rintro n ⟨w, hw, hne⟩
  rw [hacc, ne_eq, fold_eq_zero_iff]
  have hle : w ≤ ((words (pad b)).take n).sum := List.le_sum_of_mem hw
  omega

/-! ### The checksum put into its own field -/

theorem wsum_be16_append (v : U16) (l : List Byte) : wsum (be16 v ++ l) = v.toNat + wsum l := by
  rw [be16, List.cons_append, List.cons_append, List.nil_append, wsum_cons_cons, be16_toNat]

/-- Writing back the word that stands at an offset changes nothing. -/
theorem splice_be16_be16At {b : List Byte} {i : Nat} (h : i + 2 ≤ b.length) :
    splice b i (be16 (be16At b i)) = b := by
  have hword : be16 (be16At b i) = slice b i (i + 2) := by
    rw [be16_be16At, slice_eq_map_byteAt h]
    rfl
  rw [splice, be16_length, hword, List.append_assoc, slice_append_drop b (by omega),
    List.take_append_drop]

/-- A word put at an even offset counts beside the bytes before it and those after it (40_checksum.md R89 law 6). -/
theorem wsum_splice_be16 {b : List Byte} {i : Nat} (heven : i % 2 = 0) (h : i + 2 ≤ b.length) (v : U16) :
    wsum (splice b i (be16 v)) = wsum (b.take i) + (v.toNat + wsum (b.drop (i + 2))) := by
  have htake : (b.take i).length % 2 = 0 := by
    rw [List.length_take, Nat.min_eq_left (by omega), heven]
  rw [splice, be16_length, List.append_assoc, wsum_append htake, wsum_be16_append]

/-- The checksum put into its zero field: it adds itself to the sum, which then is a positive multiple of 65535
(40_checksum.md R90). -/
theorem csum_splice_csum {z : List Byte} {p : Nat} (heven : p % 2 = 0) (h : p + 2 ≤ z.length)
    (hzero : be16At z p = 0#16) : csum (splice z p (be16 (csum z))) = 0x0000#16 := by
  have hold := wsum_splice_be16 heven h 0#16
  rw [← hzero, splice_be16_be16At h, hzero, BitVec.toNat_zero] at hold
  have hnew : wsum (splice z p (be16 (csum z))) = wsum z + (0xFFFF - fold (wsum z)) := by
    rw [wsum_splice_be16 heven h, csum_toNat]
    omega
  obtain ⟨hfit, hnone, hmod⟩ := fold_spec (wsum z)
  rw [csum_eq_zero_iff, hnew]
  omega

theorem be16At_eq_zero {b : List Byte} {i : Nat} (hhigh : byteAt b i = 0x00#8)
    (hlow : byteAt b (i + 1) = 0x00#8) : be16At b i = 0#16 := by
  rw [be16At, hhigh, hlow]
  rfl

/-- Settles O23: if the checksum is 0, the word written is the one that stood there. -/
theorem selfVerification : Obligations.SelfVerification := by
  unfold Obligations.SelfVerification
  intro z p heven hlt hhigh hlow
  have hzero : be16At z p = 0#16 := be16At_eq_zero hhigh hlow
  refine ⟨csum_splice_csum heven hlt hzero, fun hcsum => ?_⟩
  rw [hcsum, ← hzero, splice_be16_be16At hlt]

/-! ### What the block built, verified -/

/-- Replacing a substring of a first part leaves what stands behind it. -/
theorem splice_append_left {a c : List Byte} {i : Nat} (h : i + c.length ≤ a.length) (b : List Byte) :
    splice (a ++ b) i c = splice a i c ++ b := by
  rw [splice, splice, List.take_append_of_le_length (by omega), List.drop_append_of_le_length h,
    List.append_assoc _ _ b]

/-- Replacing a substring of a second part leaves what stands before it. -/
theorem splice_append_right (a b c : List Byte) (i : Nat) :
    splice (a ++ b) (a.length + i) c = a ++ splice b i c := by
  rw [splice, splice, List.take_length_add_append, Nat.add_assoc, List.drop_length_add_append]
  simp only [List.append_assoc]

theorem csum_ip4hdr (src dst : IPv4Addr) (proto : Byte) (tlen : U16) (ttl : Byte) (ipid : U16) :
    csum (ip4hdr src dst proto tlen ttl ipid) = 0x0000#16 :=
  csum_splice_csum rfl (by simp) (be16At_eq_zero rfl rfl)

theorem csum_icmphdr_append (p : IcmpPart) (payload : List Byte) :
    csum (icmphdr p payload ++ payload) = 0x0000#16 := by
  rw [icmphdr, ← splice_append_left (by simp)]
  have hlen : (icmphdr0 p ++ payload).length = 8 + payload.length := by
    rw [List.length_append, icmphdr0_length]
  exact csum_splice_csum rfl (by omega) (be16At_eq_zero rfl rfl)

/-- The TCP checksum field stands at offset 28 of what is summed, behind the 12 bytes of the pseudo-header. -/
theorem csum_tcphdr_append (p : TcpPart) (src dst : IPv4Addr) (payload : List Byte) :
    csum (pseudo src dst (segmentLength payload) ++ tcphdr p src dst payload ++ payload)
      = 0x0000#16 := by
  rw [tcphdr, ← splice_append_right, ← splice_append_left (by simp)]
  exact csum_splice_csum (by rw [pseudo_length]) (by rw [tcphdr_input_length, pseudo_length]; omega)
    (be16At_eq_zero rfl rfl)

/-- Settles O26: the command is one write of the latch, with no byte in the buffer. -/
theorem csumResult : Obligations.CsumResult := by
  unfold Obligations.CsumResult
  exact fun buf s => ⟨_, writeLatch_okU16 (csum buf) s,
    ⟨rfl, rfl, rfl, rfl, memory_read_nil⟩, ⟨rfl, rfl⟩, rfl⟩

theorem exec_csum_holds {buf : List Byte} {c : U16} (h : csum buf = c) (s : State) :
    ∃ t, exec (.csum buf) s = .next t ∧ HoldsU16 t.res c := by
  obtain ⟨t, hexec, hholds, -⟩ := csumResult buf s
  exact ⟨t, hexec, h ▸ hholds⟩

/-- Settles O27: each input is the string its checksum was computed over, with that checksum in its zero field. -/
theorem csumVerifiesHeaders : Obligations.CsumVerifiesHeaders := by
  unfold Obligations.CsumVerifiesHeaders
  intro src dst proto ttl tlen ipid icmp tcp payload s
  exact ⟨exec_csum_holds (csum_ip4hdr src dst proto tlen ttl ipid) s,
    exec_csum_holds (csum_icmphdr_append icmp payload) s,
    exec_csum_holds (csum_tcphdr_append tcp src dst payload) s⟩

end Sys2Proof.Proofs

/-! PROOFS. The IPv4 header (41_ipv4_header.md): the address check of a command that returns bytes, and the header's
checksum field read back. -/

namespace Sys2Proof.Proofs

open Sys2Proof.Machine Sys2Proof.Laws

/-! ### The address check, both ways -/

/-- A raised failure leaves its code and nothing the host could read (60_exceptions.md R158). -/
theorem raise_holdsError (e : CmdError) (s : State) :
    ∃ t, raise e s = .next t ∧ HoldsError t.res (errCode e) :=
  ⟨_, raise_eq e s, rfl, rfl, rfl, memory_read_nil⟩

/-- A bad verdict on either address ends the command with `InvalidAddress`, whatever was to follow
(60_exceptions.md R151). -/
theorem withAddresses_holdsError {av : AddrValid} (h : av.sv = false ∨ av.dv = false) (s : State)
    (body : Result) : ∃ t, withAddresses av s body = .next t ∧ HoldsError t.res 0x01#8 := by
  have hinvalid : addrsValid av = false := by rwa [addrsValid, Bool.and_eq_false_iff]
  rw [withAddresses_invalid hinvalid]
  exact raise_holdsError .invalidAddress s

/-- A command that checks its addresses and then returns bytes fails exactly on a bad verdict. -/
theorem withAddresses_okBytes_check (av : AddrValid) {b : List Byte} (h : b.length ≤ 65575) (s : State) :
    ∃ t, withAddresses av s (writeLatch (.okBytes b) s) = .next t
      ∧ (if av.sv = false ∨ av.dv = false then HoldsError t.res 0x01#8
          else t.res.err = 0x00#8 ∧ t.res.outLen = BitVec.ofNat 17 b.length) := by
  split
  · next hbad => exact withAddresses_holdsError hbad s _
  · next hgood =>
    simp only [not_or, Bool.not_eq_false] at hgood
    obtain ⟨t, hexec, -, herr, -, hlen, -⟩ := withAddresses_okBytes_holds hgood.1 hgood.2 h s
    exact ⟨t, hexec, herr, by rw [← hlen, BitVec.ofNat_toNat, BitVec.setWidth_eq]⟩

/-- Settles O29: the check sees the two validity bits alone, and the 20 bytes of a header always fit. -/
theorem ip4hdrAddressCheck : Obligations.Ip4hdrAddressCheck := by
  unfold Obligations.Ip4hdrAddressCheck
  intro proto ip tlen s
  exact withAddresses_okBytes_check ip.av
    (by simp : (ip4hdr ip.src ip.dst proto tlen ip.ttl ip.ipid).length ≤ 65575) s

/-! ### The checksum field -/

theorem be16At_splice_be16 {b : List Byte} {i : Nat} (h : i ≤ b.length) (v : U16) :
    be16At (splice b i (be16 v)) i = v := by
  have hlen : (b.take i).length = i := List.length_take_of_le h
  refine be16At_of_drop (l := b.drop (i + 2)) ?_
  rw [splice, be16_length, List.append_assoc, List.drop_left' hlen]

theorem be16At_ip4hdr (src dst : IPv4Addr) (proto : Byte) (tlen : U16) (ttl : Byte) (ipid : U16) :
    be16At (ip4hdr src dst proto tlen ttl ipid) 10 = csum (ip4hdr0 src dst proto tlen ttl ipid) :=
  be16At_splice_be16 (by simp) _

/-- With its checksum field 0 the header is the first pass again (41_ipv4_header.md R101). -/
theorem splice_zero_ip4hdr (src dst : IPv4Addr) (proto : Byte) (tlen : U16) (ttl : Byte) (ipid : U16) :
    splice (ip4hdr src dst proto tlen ttl ipid) 10 [0x00#8, 0x00#8]
      = ip4hdr0 src dst proto tlen ttl ipid := rfl

/-- A string with a byte that is not 0 has a checksum other than `0xFFFF` (40_checksum.md R89 law 3). -/
theorem csum_ne_ones_of_mem {b : List Byte} {x : Byte} (hx : x ∈ b) (hne : x ≠ 0x00#8) :
    csum b ≠ 0xFFFF#16 := by
  rw [ne_eq, csum_eq_ones_iff, wsum_eq_zero_iff]
  exact fun hall => hne (hall x hx)

/-- Settles O30: the field holds the checksum of the first pass, whose first byte `0x45` is not 0. -/
theorem ip4HeaderProperties : Obligations.Ip4HeaderProperties := by
  unfold Obligations.Ip4HeaderProperties
  intro src dst proto ttl tlen ipid
  have hver : verIhl ∈ ip4hdr0 src dst proto tlen ttl ipid := List.mem_cons_self
  rw [splice_zero_ip4hdr, be16At_ip4hdr]
  exact ⟨ip4hdr_length src dst proto tlen ttl ipid, rfl, csum_ip4hdr src dst proto tlen ttl ipid,
    csum_ne_ones_of_mem hver (by decide)⟩

end Sys2Proof.Proofs

/-! PROOFS. The ICMP header (42_icmp_header.md): its checksum field read back, and an identifier that gives the field
any value. -/

namespace Sys2Proof.Proofs

open Sys2Proof.Machine Sys2Proof.Laws

theorem be16At_icmphdr (p : IcmpPart) (payload : List Byte) :
    be16At (icmphdr p payload) 2 = csum (icmphdr0 p ++ payload) :=
  be16At_splice_be16 (by simp) _

/-- A word sum that fits 16 bits is folded by no pass, so the checksum is its complement. -/
theorem csum_of_wsum_eq_toNat {b : List Byte} {v : U16} (h : wsum b = v.toNat) : csum b = ~~~v := by
  have hfit : v.toNat ≤ 0xFFFF := Nat.le_of_lt_succ v.isLt
  rw [csum, h, fold_of_le hfit, BitVec.ofNat_toNat, BitVec.setWidth_eq, complement16]

/-- The echo fields that are all 0 but the identifier: the one word the header then adds to its payload's. -/
def idOnly (id : U16) : IcmpPart :=
  { icmpType := 0x00#8, icmpCode := 0x00#8, id := id, seq := 0#16 }

theorem wsum_icmphdr0_idOnly (id : U16) : wsum (icmphdr0 (idOnly id)) = id.toNat := by
  have hwords : icmphdr0 (idOnly id) = be16 0#16 ++ (be16 0#16 ++ (be16 id ++ (be16 0#16 ++ []))) := rfl
  rw [hwords]
  simp only [wsum_be16_append, wsum_nil, BitVec.toNat_zero, Nat.zero_add, Nat.add_zero]

/-- Every value of the checksum field is reached, by the identifier that is its complement (42_icmp_header.md R114). -/
theorem be16At_icmphdr_idOnly_not (v : U16) : be16At (icmphdr (idOnly (~~~v)) []) 2 = v := by
  rw [be16At_icmphdr, List.append_nil, csum_of_wsum_eq_toNat (wsum_icmphdr0_idOnly (~~~v)),
    BitVec.not_not]

/-- Without the payload `01` it was computed over, a header whose fields are all 0 has the checksum `0x0100`. -/
theorem csum_icmphdr_without_payload : csum (icmphdr (idOnly 0#16) [0x01#8]) = 0x0100#16 := by
  decide

/-- Settles O32: header and payload are what the checksum was filled into; the header alone lacks the payload's words;
and the identifier alone ranges over every word. -/
theorem icmpHeaderProperties : Obligations.IcmpHeaderProperties := by
  unfold Obligations.IcmpHeaderProperties
  refine ⟨fun icmp payload => ⟨icmphdr_length icmp payload, csum_icmphdr_append icmp payload⟩,
    ⟨idOnly 0#16, [0x01#8], ?_⟩, fun v => ⟨idOnly (~~~v), [], be16At_icmphdr_idOnly_not v⟩⟩
  rw [csum_icmphdr_without_payload]
  decide

end Sys2Proof.Proofs

/-! PROOFS. The TCP header (43_tcp_header.md): its checksum field read back, when two checksums agree, and what the
pseudo-header adds to the sum. -/

namespace Sys2Proof.Proofs

open Sys2Proof.Machine Sys2Proof.Laws

/-- Settles O34: the check sees the two validity bits alone, and the 20 bytes of a header always fit. -/
theorem tcphdrAddressCheck : Obligations.TcphdrAddressCheck := by
  unfold Obligations.TcphdrAddressCheck
  intro addr tcp payload s
  exact withAddresses_okBytes_check addr.av
    (by simp : (tcphdr tcp addr.src addr.dst payload).length ≤ 65575) s

theorem be16At_tcphdr (p : TcpPart) (src dst : IPv4Addr) (payload : List Byte) :
    be16At (tcphdr p src dst payload) 16
      = csum (pseudo src dst (segmentLength payload) ++ tcphdr0 p ++ payload) :=
  be16At_splice_be16 (by simp) _

/-- Positive sums have the same checksum exactly when they agree modulo 65535 (40_checksum.md R85). -/
theorem csum_eq_csum_iff {a b : List Byte} (ha : 0 < wsum a) (hb : 0 < wsum b) :
    csum a = csum b ↔ wsum a % 65535 = wsum b % 65535 := by
  rw [← BitVec.toNat_inj, csum_toNat, csum_toNat, fold_eq ha, fold_eq hb]
  omega

/-- What a TCP checksum adds up, by its parts: both addresses, the protocol 6, the segment length, then header and
payload (43_tcp_header.md R122, R123). -/
theorem wsum_tcphdr_input (p : TcpPart) (src dst : IPv4Addr) (payload : List Byte) :
    wsum (pseudo src dst (segmentLength payload) ++ tcphdr0 p ++ payload)
      = wsum (addrBytes src) + (wsum (addrBytes dst)
          + (6 + ((segmentLength payload).toNat + wsum (tcphdr0 p ++ payload)))) := by
  have hproto : ∀ l, wsum ([0x00#8, 0x06#8] ++ l) = 6 + wsum l := wsum_cons_cons 0x00#8 0x06#8
  simp only [pseudo, List.append_assoc]
  rw [wsum_append (by simp), wsum_append (by simp), hproto, wsum_be16_append]

/-- The protocol byte alone makes the sum positive. -/
theorem wsum_tcphdr_input_pos (p : TcpPart) (src dst : IPv4Addr) (payload : List Byte) :
    0 < wsum (pseudo src dst (segmentLength payload) ++ tcphdr0 p ++ payload) := by
  rw [wsum_tcphdr_input]
  omega

/-- Two destinations give the same checksum field exactly when their word sums agree modulo 65535: all else in the
sum is common to both. -/
theorem be16At_tcphdr_eq_iff (p : TcpPart) (src d₁ d₂ : IPv4Addr) (payload : List Byte) :
    be16At (tcphdr p src d₁ payload) 16 = be16At (tcphdr p src d₂ payload) 16
      ↔ wsum (addrBytes d₁) % 65535 = wsum (addrBytes d₂) % 65535 := by
  rw [be16At_tcphdr, be16At_tcphdr,
    csum_eq_csum_iff (wsum_tcphdr_input_pos p src d₁ payload) (wsum_tcphdr_input_pos p src d₂ payload),
    wsum_tcphdr_input, wsum_tcphdr_input]
  omega

/-- TCP fields that are all 0. -/
def zeroTcpPart : TcpPart :=
  { flags := 0x00#8, sport := 0#16, dport := 0#16, seqn := 0#32, ackn := 0#32, win := 0#16 }

/-- Address `0.0.0.0`. -/
def zeroAddr : IPv4Addr := { o0 := 0x00#8, o1 := 0x00#8, o2 := 0x00#8, o3 := 0x00#8 }

/-- Without its pseudo-header, a header whose fields are all 0 has the checksum `0x001A`: the protocol 6 and the
segment length 20 are missing from the sum. -/
theorem csum_tcphdr_without_pseudo : csum (tcphdr zeroTcpPart zeroAddr zeroAddr [] ++ []) = 0x001A#16 := by
  decide

/-- Settles O35: the field holds the checksum of a positive sum, filled into that same sum; the header alone lacks the
pseudo-header's words; and of the destination only its word sum modulo 65535 counts. -/
theorem tcpHeaderProperties : Obligations.TcpHeaderProperties := by
  unfold Obligations.TcpHeaderProperties
  refine ⟨fun tcp src dst payload => ⟨tcphdr_length tcp src dst payload,
      csum_tcphdr_append tcp src dst payload, ?_⟩,
    ⟨zeroTcpPart, zeroAddr, zeroAddr, [], ?_⟩, be16At_tcphdr_eq_iff⟩
  · rw [be16At_tcphdr, ne_eq, csum_eq_ones_iff]
    exact (wsum_tcphdr_input_pos tcp src dst payload).ne'
  · rw [csum_tcphdr_without_pseudo]
    decide

end Sys2Proof.Proofs

/-! PROOFS. `ASSEMBLE` (44_packet_assembler.md): how its three forms end, the parts of a packet read back from its
bytes, and the obligations of the family assembled from them. -/

namespace Sys2Proof.Proofs

open Sys2Proof.Machine Sys2Proof.Laws

/-! ### How the three forms end -/

/-- Settles O38: behind the address check stands the failure alone. -/
theorem assembleUnsupportedResult : Obligations.AssembleUnsupportedResult := by
  unfold Obligations.AssembleUnsupportedResult
  intro kind ip s hsv hdv
  have hvalid : addrsValid ip.av = true := by simp [addrsValid, hsv, hdv]
  obtain ⟨t, hraise, herror⟩ := raise_holdsError .unsupportedPacketKind s
  exact ⟨t, (withAddresses_valid hvalid s _).trans hraise, writeLatch_frame hraise, herror⟩

/-- Settles O39: every form is the address check around the rest of its meaning, the kind included. -/
theorem assembleAddressCheck : Obligations.AssembleAddressCheck := by
  unfold Obligations.AssembleAddressCheck
  intro ip icmp tcp payload kind s hbad
  exact ⟨withAddresses_holdsError hbad s _, withAddresses_holdsError hbad s _,
    withAddresses_holdsError hbad s _⟩

theorem exec_assembleIcmp_holds {ip : IpPart} {payload : List Byte} (hlen : payload.length ≤ 65535)
    (hsv : ip.av.sv = true) (hdv : ip.av.dv = true) (icmp : IcmpPart) (s : State) :
    ∃ t, exec (.assembleIcmp ip icmp payload) s = .next t
      ∧ HoldsBytes t.res (packet ip 0x01#8 (icmphdr icmp payload) payload) := by
  obtain ⟨t, hexec, -, hholds⟩ := assembleIcmpResult ip icmp payload s hlen hsv hdv
  rw [← totalLength_eq 8 payload] at hholds
  exact ⟨t, hexec, hholds⟩

theorem exec_assembleTcp_holds {ip : IpPart} {payload : List Byte} (hlen : payload.length ≤ 65535)
    (hsv : ip.av.sv = true) (hdv : ip.av.dv = true) (tcp : TcpPart) (s : State) :
    ∃ t, exec (.assembleTcp ip tcp payload) s = .next t
      ∧ HoldsBytes t.res (packet ip 0x06#8 (tcphdr tcp ip.src ip.dst payload) payload) := by
  obtain ⟨t, hexec, -, hholds⟩ := assembleTcpResult ip tcp payload s hlen hsv hdv
  rw [← totalLength_eq 20 payload] at hholds
  exact ⟨t, hexec, hholds⟩

/-- Settles O40: each command leaves the bytes of its own function in the latch, and a packet is those of the two
header commands before the payload. -/
theorem assembleEqualsParts : Obligations.AssembleEqualsParts := by
  unfold Obligations.AssembleEqualsParts
  intro ip icmp tcp payload s s₁ s₂ hlen hsv hdv
  refine ⟨?icmp, ?tcp⟩
  case icmp =>
    obtain ⟨t₁, hexec₁, -, hholds₁⟩ :=
      ip4hdrResult 0x01#8 ip (trunc16 (28 + payload.length)) s₁ hsv hdv
    obtain ⟨t₂, hexec₂, -, hholds₂⟩ := icmphdrResult icmp payload s₂
    obtain ⟨t, hexec, hholds⟩ := exec_assembleIcmp_holds hlen hsv hdv icmp s
    exact ⟨_, _, t, t₁, t₂, hexec₁, hholds₁, hexec₂, hholds₂, hexec, hholds⟩
  case tcp =>
    obtain ⟨t₁, hexec₁, -, hholds₁⟩ :=
      ip4hdrResult 0x06#8 ip (trunc16 (40 + payload.length)) s₁ hsv hdv
    obtain ⟨t₂, hexec₂, -, hholds₂⟩ :=
      tcphdrResult { av := ip.av, src := ip.src, dst := ip.dst } tcp payload s₂ hsv hdv
    rw [← tcphdr_input_eq, ← tcphdr_eq] at hholds₂
    obtain ⟨t, hexec, hholds⟩ := exec_assembleTcp_holds hlen hsv hdv tcp s
    exact ⟨_, _, t, t₁, t₂, hexec₁, hholds₁, hexec₂, hholds₂, hexec, hholds⟩

/-! ### The parts of a packet -/

/-- The first 20 bytes of a packet are its IPv4 header. -/
theorem slice_packet_ip4hdr (ip : IpPart) (proto : Byte) (inner payload : List Byte) :
    slice (packet ip proto inner payload) 0 20
      = ip4hdr ip.src ip.dst proto (totalLength inner.length payload) ip.ttl ip.ipid := rfl

/-- What follows the IPv4 header of a packet. -/
theorem drop_packet_ip4hdr (ip : IpPart) (proto : Byte) (inner payload : List Byte) :
    (packet ip proto inner payload).drop 20 = inner ++ payload := rfl

/-- What follows both headers of a packet. -/
theorem drop_packet_headers (ip : IpPart) (proto : Byte) (inner payload : List Byte) :
    (packet ip proto inner payload).drop (20 + inner.length) = payload := by
  rw [← List.drop_drop, drop_packet_ip4hdr, List.drop_left]

/-- A packet carries both of its addresses, one after the other (30_encoding.md R65). -/
theorem slice_packet_addrs (ip : IpPart) (proto : Byte) (inner payload : List Byte) :
    slice (packet ip proto inner payload) 12 20 = addrBytes ip.src ++ addrBytes ip.dst := rfl

/-- The total length field of a packet is its own length, as far as 16 bits hold it (44_packet_assembler.md R139). -/
theorem be16At_packet_length (ip : IpPart) (proto : Byte) (inner payload : List Byte) :
    be16At (packet ip proto inner payload) 2 = trunc16 (packet ip proto inner payload).length := by
  rw [packet_length]
  exact be16At_of_drop rfl

/-- What the IPv4 header of a packet says, whatever it is put around: version and header length (assumption 12),
total length, protocol, and a checksum that verifies (44_packet_assembler.md R142). -/
theorem packet_ip4hdr_fields (ip : IpPart) (proto : Byte) (inner payload : List Byte) :
    byteAt (packet ip proto inner payload) 0 = 0x45#8
      ∧ be16At (packet ip proto inner payload) 2 = trunc16 (packet ip proto inner payload).length
      ∧ byteAt (packet ip proto inner payload) 9 = proto
      ∧ csum (slice (packet ip proto inner payload) 0 20) = 0x0000#16 := by
  refine ⟨rfl, be16At_packet_length ip proto inner payload, rfl, ?_⟩
  rw [slice_packet_ip4hdr, csum_ip4hdr]

/-- The pseudo-header of a TCP packet, rebuilt from the packet's own address bytes and length. -/
theorem pseudo_of_tcp_packet (ip : IpPart) (tcp : TcpPart) (payload : List Byte) :
    slice (packet ip 0x06#8 (tcphdr tcp ip.src ip.dst payload) payload) 12 20 ++ [0x00#8, 0x06#8]
        ++ be16 (trunc16
          ((packet ip 0x06#8 (tcphdr tcp ip.src ip.dst payload) payload).length - 20))
      = pseudo ip.src ip.dst (segmentLength payload) := by
  rw [slice_packet_addrs, packet_length, tcphdr_length, Nat.add_assoc, Nat.add_sub_cancel_left]
  rfl

/-- Settles O41: the IPv4 header's fields are every packet's, and behind it stand the ICMP header and the payload its
checksum covers. -/
theorem icmpPacketProperties : Obligations.IcmpPacketProperties := by
  unfold Obligations.IcmpPacketProperties
  intro ip icmp payload s hlen hsv hdv
  obtain ⟨t, hexec, hholds⟩ := exec_assembleIcmp_holds hlen hsv hdv icmp s
  obtain ⟨hver, htotal, hproto, hip⟩ :=
    packet_ip4hdr_fields ip 0x01#8 (icmphdr icmp payload) payload
  refine ⟨t, _, hexec, hholds, packet_length _ _ _ _, hver, htotal, hproto, hip, ?_,
    drop_packet_headers ip 0x01#8 (icmphdr icmp payload) payload⟩
  rw [drop_packet_ip4hdr, csum_icmphdr_append]

/-- Settles O42: as O41, with the TCP checksum's pseudo-header rebuilt from the packet. -/
theorem tcpPacketProperties : Obligations.TcpPacketProperties := by
  unfold Obligations.TcpPacketProperties
  intro ip tcp payload s hlen hsv hdv
  obtain ⟨t, hexec, hholds⟩ := exec_assembleTcp_holds hlen hsv hdv tcp s
  obtain ⟨hver, htotal, hproto, hip⟩ :=
    packet_ip4hdr_fields ip 0x06#8 (tcphdr tcp ip.src ip.dst payload) payload
  refine ⟨t, _, hexec, hholds, packet_length _ _ _ _, hver, htotal, hproto, hip, ?_,
    drop_packet_headers ip 0x06#8 (tcphdr tcp ip.src ip.dst payload) payload⟩
  rw [pseudo_of_tcp_packet, drop_packet_ip4hdr, ← List.append_assoc, csum_tcphdr_append]

end Sys2Proof.Proofs

/-! PROOFS. Failures (60_exceptions.md): which failure a command ends with, which descriptors are no command, and
what stands in the latch after a failure; and the obligations of the family assembled from them. -/

namespace Sys2Proof.Proofs

open Sys2Proof.Machine Sys2Proof.Laws

/-- Settles O9: the step is chosen by the host's oldest interaction, and there is none. -/
theorem stepIdle : Obligations.StepIdle := by
  unfold Obligations.StepIdle
  exact fun _ => step_nil

/-! ### Which failure a command ends with -/

/-- Neither address of the command is bad: both verdicts are good, or it has no addresses. -/
def AddressesGood (i : Instr) : Prop :=
  ∀ av, addrVerdict i = some av → av.sv = true ∧ av.dv = true

theorem addressesGood_iff (i : Instr) :
    AddressesGood i ↔ ¬ ∃ av, addrVerdict i = some av ∧ (av.sv = false ∨ av.dv = false) := by
  simp [AddressesGood]

/-- A command with addresses, one of them bad (60_exceptions.md R151): the check comes before everything else. -/
theorem exec_invalidAddress {i : Instr} {av : AddrValid} (hav : addrVerdict i = some av)
    (hbad : av.sv = false ∨ av.dv = false) (s : State) :
    ∃ t, exec i s = .next t ∧ HoldsError t.res 0x01#8 := by
  cases i with
  | csum | icmphdr => cases hav
  | ip4hdr | tcphdr | assembleIcmp | assembleTcp | assembleUnsupported =>
    cases hav
    exact withAddresses_holdsError hbad s _

/-- `ASSEMBLE` of an unsupported kind past the address check (60_exceptions.md R152). -/
theorem exec_unsupportedPacketKind {i : Instr} (hgood : AddressesGood i)
    (hkind : unsupportedForm i = true) (s : State) :
    ∃ t, exec i s = .next t ∧ HoldsError t.res 0x02#8 := by
  cases i with
  | csum | ip4hdr | icmphdr | tcphdr | assembleIcmp | assembleTcp => cases hkind
  | assembleUnsupported kind ip =>
    obtain ⟨hsv, hdv⟩ := hgood ip.av rfl
    obtain ⟨t, hexec, -, herror⟩ := assembleUnsupportedResult kind ip s hsv hdv
    exact ⟨t, hexec, herror⟩

/-- A supported command past the address check succeeds (60_exceptions.md R155, R156). -/
theorem exec_succeeds {i : Instr} (hwf : i.WellFormed) (hgood : AddressesGood i)
    (hkind : unsupportedForm i = false) (s : State) :
    ∃ t, exec i s = .next t ∧ t.res.err = 0x00#8 := by
  cases i with
  | csum buf =>
    obtain ⟨t, hexec, ⟨herr, -⟩, -⟩ := csumResult buf s
    exact ⟨t, hexec, herr⟩
  | ip4hdr proto ip tlen =>
    obtain ⟨hsv, hdv⟩ := hgood ip.av rfl
    obtain ⟨t, hexec, -, herr, -⟩ := ip4hdrResult proto ip tlen s hsv hdv
    exact ⟨t, hexec, herr⟩
  | icmphdr icmp payload =>
    obtain ⟨t, hexec, -, herr, -⟩ := icmphdrResult icmp payload s
    exact ⟨t, hexec, herr⟩
  | tcphdr addr tcp payload =>
    obtain ⟨hsv, hdv⟩ := hgood addr.av rfl
    obtain ⟨t, hexec, -, herr, -⟩ := tcphdrResult addr tcp payload s hsv hdv
    exact ⟨t, hexec, herr⟩
  | assembleIcmp ip icmp payload =>
    obtain ⟨hsv, hdv⟩ := hgood ip.av rfl
    obtain ⟨t, hexec, herr, -⟩ :=
      exec_assembleIcmp_holds ((wf_assembleIcmp _ _ _).1 hwf) hsv hdv icmp s
    exact ⟨t, hexec, herr⟩
  | assembleTcp ip tcp payload =>
    obtain ⟨hsv, hdv⟩ := hgood ip.av rfl
    obtain ⟨t, hexec, herr, -⟩ :=
      exec_assembleTcp_holds ((wf_assembleTcp _ _ _).1 hwf) hsv hdv tcp s
    exact ⟨t, hexec, herr⟩
  | assembleUnsupported => cases hkind

/-- Settles O44: the address check comes first, then the kind, and past both every command succeeds. -/
theorem failurePriority : Obligations.FailurePriority := by
  unfold Obligations.FailurePriority
  intro i s hwf
  split_ifs with haddr hkind
  · obtain ⟨av, hav, hbad⟩ := haddr
    obtain ⟨t, hexec, herr, -⟩ := exec_invalidAddress hav hbad s
    exact ⟨t, hexec, herr⟩
  · obtain ⟨t, hexec, herr, -⟩ := exec_unsupportedPacketKind ((addressesGood_iff i).2 haddr) hkind s
    exact ⟨t, hexec, herr⟩
  · exact exec_succeeds hwf ((addressesGood_iff i).2 haddr) (Bool.eq_false_iff.2 hkind) s

/-- No command ends with the code of `IllegalCommand`: it is the decoder's alone (60_exceptions.md R154). -/
theorem exec_err_ne_illegalCommand {i : Instr} (hwf : i.WellFormed) (s : State) :
    ∃ t, exec i s = .next t ∧ t.res.err ≠ 0x80#8 := by
  obtain ⟨t, hexec, herr⟩ := failurePriority i s hwf
  refine ⟨t, hexec, ?_⟩
  rw [herr]
  split_ifs <;> decide

/-! ### What a descriptor leaves -/

/-- A descriptor's step leaves the host's side and a latch that meets the invariant, whatever it held before
(10_state.md R15). -/
theorem step_issue_latchInv {s t : State} {d : List Byte} {rest : List HostEvent}
    (hp : s.pending = .issue d :: rest) (h : step s = .next t) :
    HostUnchanged { s with pending := rest } t ∧ LatchInv t.res := by
  obtain ⟨r, hr, houtcome⟩ := runDescriptor_outcome d
  rw [step_issue hp, houtcome] at h
  exact ⟨writeLatch_frame h, writeLatch_latchInv hr h⟩

/-- In a latch that meets the invariant an error code stands alone. -/
theorem latchInv_holdsError {r : Latch} (h : LatchInv r) (herr : r.err ≠ 0x00#8) :
    HoldsError r r.err := by
  have hread := latchInv_read_eq_none_iff h
  obtain ⟨-, -, -, -, halone, -⟩ := h
  obtain ⟨hcsumV, hlen⟩ := halone herr
  exact ⟨rfl, hcsumV, hlen, fun k => (hread k).2 (by simp [hlen])⟩

/-- Settles O45: after a failing descriptor the latch holds an error, so `CSUM_V = 0` and every offset is at or
above `OUT_LEN`. -/
theorem failuresLeaveNothing : Obligations.FailuresLeaveNothing := by
  unfold Obligations.FailuresLeaveNothing
  intro s t d rest hp hstep herr
  obtain ⟨-, hinv⟩ := step_issue_latchInv hp hstep
  obtain ⟨-, hcsumV, hlen, -⟩ := latchInv_holdsError hinv herr
  refine ⟨hcsumV, hlen, by simp [readLatch_csum, hcsumV], fun off hmax => ?_⟩
  exact readLatch_outBuf_refused hmax (by simp [hlen])

/-- Settles O46: a descriptor's step answers a next state, whose latch meets the invariant. -/
theorem everyDescriptorCompletes : Obligations.EveryDescriptorCompletes := by
  unfold Obligations.EveryDescriptorCompletes
  intro s d rest hp
  obtain ⟨t, hstep, -⟩ := step_issue_next hp
  obtain ⟨hhost, hinv⟩ := step_issue_latchInv hp hstep
  have hres : t.res.err = 0x00#8 ∨ HoldsError t.res t.res.err :=
    or_iff_not_imp_left.2 (latchInv_holdsError hinv)
  obtain ⟨-, -, -, hcode, -⟩ := hinv
  exact ⟨t, hstep, hhost, hres, hcode⟩

/-! ### Which descriptors are no command -/

/-- The shapes 30_encoding.md R63 lists. -/
def IllegalShape (d : List Byte) : Prop :=
  d.length < 4
  ∨ byteAt d 0 = 0x00#8 ∨ 0x06 ≤ (byteAt d 0).toNat
  ∨ (byteAt d 0 ∈ [0x01#8, 0x03#8, 0x04#8] ∧ byteAt d 1 ≠ 0x00#8)
  ∨ (byteAt d 0 = 0x02#8 ∧ be16At d 2 ≠ 0#16)
  ∨ (byteAt d 0 ∈ [0x02#8, 0x04#8, 0x05#8] ∧ 4 ≤ (byteAt d 4).toNat)
  ∨ (byteAt d 0 = 0x01#8 ∧ d.length ≠ 4 + (be16At d 2).toNat)
  ∨ (byteAt d 0 = 0x02#8 ∧ d.length ≠ 18)
  ∨ (byteAt d 0 = 0x03#8 ∧ d.length ≠ 10 + (be16At d 2).toNat)
  ∨ (byteAt d 0 = 0x04#8 ∧ d.length ≠ 28 + (be16At d 2).toNat)
  ∨ (byteAt d 0 = 0x05#8 ∧ byteAt d 1 = 0x01#8 ∧ d.length ≠ 22 + (be16At d 2).toNat)
  ∨ (byteAt d 0 = 0x05#8 ∧ byteAt d 1 = 0x06#8 ∧ d.length ≠ 31 + (be16At d 2).toNat)
  ∨ (byteAt d 0 = 0x05#8 ∧ d.length < 16)

/-- The opcodes above the assigned ones, 0, and the assigned ones (30_encoding.md R53). -/
theorem opcode_cases (b : Byte) :
    0x06 ≤ b.toNat ∨ b = 0x00#8 ∨ b = 0x01#8 ∨ b = 0x02#8 ∨ b = 0x03#8 ∨ b = 0x04#8 ∨ b = 0x05#8 := by
  bv_omega

/-- The decoder accepts exactly what is not of an illegal shape. Opcode by opcode: an assigned one leaves the checks
of its own format on both sides, any other is no format's and illegal. -/
theorem decode_accepts_iff (d : List Byte) : (∃ i, decode d = .ok i) ↔ ¬ IllegalShape d := by
  simp only [decodeShape d, exists_or, exists_and_left, exists_eq, and_true, IllegalShape]
  obtain hlarge | hopc | hopc | hopc | hopc | hopc | hopc := opcode_cases (byteAt d 0)
  · have hne : ∀ b : Byte, b.toNat < 6 → byteAt d 0 ≠ b := by
      rintro b hb rfl
      omega
    simp [hlarge, hne]
  all_goals
    rw [hopc]
    grind

/-- Settles O8: a descriptor of one of the shapes is rejected by the decoder, whose rejection is the failure; any
other decodes to a well-formed command, and no command ends with that code. -/
theorem illegalCommand : Obligations.IllegalCommand := by
  unfold Obligations.IllegalCommand
  intro s d rest hp
  obtain ⟨t, hstep, -⟩ := step_issue_next hp
  obtain ⟨hhost, -⟩ := step_issue_latchInv hp hstep
  refine ⟨t, hstep, hhost, ?_⟩
  rw [step_issue hp] at hstep
  obtain ⟨i, hdecode, hrun⟩ | ⟨e, hdecode, hrun⟩ := runDescriptor_cases d { s with pending := rest }
  · have hlegal : ¬ IllegalShape d := (decode_accepts_iff d).1 ⟨i, hdecode⟩
    obtain ⟨t', hexec, herr⟩ := exec_err_ne_illegalCommand (decode_wellFormed hdecode) _
    cases (hrun.trans hexec).symm.trans hstep
    exact (if_neg hlegal).mpr herr
  · have hillegal : IllegalShape d := by
      by_contra h
      obtain ⟨i, hok⟩ := (decode_accepts_iff d).2 h
      cases hok.symm.trans hdecode
    obtain ⟨t', hraise, herror⟩ := raise_holdsError .illegalCommand { s with pending := rest }
    cases (hrun.trans hraise).symm.trans hstep
    exact (if_pos hillegal).mpr herror

end Sys2Proof.Proofs

/-! PROOFS. Reset and the limits of the length fields (70_reset_and_hazards.md). -/

namespace Sys2Proof.Proofs

open Sys2Proof.Machine Sys2Proof.Laws

/-- Settles O10: the step is `resetBlock` with the input served, and the reset latch has `CSUM_V = 0` and no byte. -/
theorem stepReset : Obligations.StepReset := by
  unfold Obligations.StepReset
  intro s rest hpending
  exact ⟨_, step_reset hpending, ⟨rfl, rfl⟩, latch_reset_err, latch_reset_csumV, latch_reset_outLen,
    readLatch_csum Latch.reset, memory_read_nil⟩

/-- Truncation to 16 bits keeps exactly the numbers of at most 16 bits. -/
theorem trunc16_toNat_eq_iff (n : Nat) : (trunc16 n).toNat = n ↔ n ≤ 65535 := by
  rw [trunc16, BitVec.toNat_ofNat, Nat.mod_eq_iff_lt (by decide)]
  exact Nat.lt_succ_iff

/-- The total length is true exactly while headers and payload together fit 16 bits (44_packet_assembler.md R139). -/
theorem totalLength_toNat_eq_iff (inner : Nat) (payload : List Byte) :
    (totalLength inner payload).toNat = 20 + inner + payload.length
      ↔ 20 + inner + payload.length ≤ 65535 :=
  trunc16_toNat_eq_iff _

/-- The segment length is true exactly while header and payload together fit 16 bits (43_tcp_header.md R122). -/
theorem segmentLength_toNat_eq_iff (payload : List Byte) :
    (segmentLength payload).toNat = 20 + payload.length ↔ 20 + payload.length ≤ 65535 :=
  trunc16_toNat_eq_iff _

/-- Settles O43: the bounds are 65535 less the bytes of the headers, `20 + 8`, `20 + 20` and `20`. -/
theorem lengthFieldsExact : Obligations.LengthFieldsExact := by
  unfold Obligations.LengthFieldsExact
  intro payload _
  refine ⟨(totalLength_toNat_eq_iff 8 payload).trans ?_, (totalLength_toNat_eq_iff 20 payload).trans ?_,
    (segmentLength_toNat_eq_iff payload).trans ?_⟩
  all_goals omega

end Sys2Proof.Proofs
